-- ==== Sys2Proof/Word.lean ====
section
/-! DEFINITION. The data the decoder moves: bytes, pixels and the parsed header record. -/

namespace Sys2Proof

/-- One byte of IN, one sample of OUT, or one component of a pixel: unsigned, bit 7 most significant (R7, R8). -/
abbrev Byte := BitVec 8

/-- A Pixel: four unsigned 8-bit components; two pixels are equal when all four components are equal (R8). -/
structure Pixel where
  r : Byte
  g : Byte
  b : Byte
  a : Byte
  deriving DecidableEq, Repr, Inhabited

/-- The Header record held by the registers HDR.WIDTH, HDR.HEIGHT, HDR.CHANNELS and HDR.COLORSPACE, each exactly as
wide as the stream field it copies (R28). -/
structure Header where
  width : BitVec 32
  height : BitVec 32
  channels : Byte
  colorspace : Byte
  deriving DecidableEq, Repr, Inhabited

/-- The pixel {0,0,0,0} that every cache slot holds after reset (R24). -/
def zeroPixel : Pixel := ⟨0, 0, 0, 0⟩

/-- The opaque black {0,0,0,255} that PX holds after reset (R20). -/
def opaqueBlack : Pixel := ⟨0, 0, 0, 255⟩

end Sys2Proof
end

