-- ==== Sys2Proof/Config.lean ====
section
/-! DEFINITION. What an implementation fixes (the parameters of R6) and the free values: contents the spec leaves
unspecified, which no proof can see. -/

namespace Sys2Proof

/-- The parameter RUN_BIAS, 0 or 1 (R6, R181, D1). -/
inductive RunBias where
  | zero
  | one
  deriving DecidableEq, Repr

/-- The parameter LUMA_DG_MASK, 0x3F or 0x1F (R6, R87, D2). -/
inductive LumaDgMask where
  | sixBits
  | fiveBits
  deriving DecidableEq, Repr

/-- The parameters of a decode (R6, R39): no step can change them. `outCapacity := none` is "no limit". -/
structure Config where
  runBias : RunBias
  lumaDgMask : LumaDgMask
  outCapacity : Option Nat
  deriving DecidableEq, Repr

/-- The defaults of R6: RUN_BIAS = 1, LUMA_DG_MASK = 0x3F, OUT_CAPACITY unlimited (D1, D2, D8; log entry 2). -/
def Config.default : Config := ⟨.one, .sixBits, none⟩

/-- DESIGN CHOICE (log entry 3): what the header registers contain while the spec says they hold no value (R29). -/
opaque Config.freeHeader : Nat → Header

/-- FREE VALUE (log entry 4): PX after an error (R197). -/
opaque Config.freePixel : Nat → Pixel

/-- FREE VALUE (log entry 4): the 64 cache slots after an error (R197). -/
opaque Config.freeCache : Nat → Vector Pixel 64

/-- FREE VALUE (log entry 4): IN_POS after an error (R27, R197); any natural number (R26). -/
opaque Config.freeInPos : Nat → Nat

/-- FREE VALUE (log entry 4): OUT_POS after an error (R197); the spec bounds the cursor by 2^72 (R31), so the value has
72 bits. -/
opaque Config.freeOutPos : Nat → BitVec 72

end Sys2Proof
end

