-- ==== Sys2Proof/Machine/State.lean ====
section
/-! DEFINITION. The state of the block: every register and space the spec names (10_state.md), the launch inputs a step
reads (R39), and the two fields of the model's own (log entries 5 and 8). Plain data. -/

namespace Sys2Proof.Machine

/-- The status register PHASE (R33). -/
inductive Phase where
  | header
  | pixels
  | done
  | error
  deriving DecidableEq, Repr

/-- The two bits a host reads from PHASE (R33, D4). -/
def Phase.code : Phase → BitVec 2
  | .header => 0
  | .pixels => 1
  | .done => 2
  | .error => 3

/-- The status register CAUSE (R34); the codes 5 to 7 are never written, and the type has no such value. -/
inductive Cause where
  | none
  | formatMagic
  | formatColorspace
  | truncation
  | overrun
  deriving DecidableEq, Repr

/-- The three bits a host reads from CAUSE (R34, D5). -/
def Cause.code : Cause → BitVec 3
  | .none => 0
  | .formatMagic => 1
  | .formatColorspace => 2
  | .truncation => 3
  | .overrun => 4

/-- The three error classes of the source (R190). -/
inductive ErrorClass where
  | formatError
  | truncationError
  | overrunError
  deriving DecidableEq, Repr

/-- The class each cause belongs to (R34, R190). -/
def Cause.errorClass : Cause → Option ErrorClass
  | .none => Option.none
  | .formatMagic => some .formatError
  | .formatColorspace => some .formatError
  | .truncation => some .truncationError
  | .overrun => some .overrunError

/-- The samples of OUT that have been written: (index, sample) pairs, indices strictly rising. A sample not listed has not
been written and has no value (R53, D12; log entry 6). -/
abbrev Memory := List Host.Cell

/-- The whole state. -/
structure State where
  /-- RUN_BIAS, LUMA_DG_MASK, OUT_CAPACITY: launch parameters (R6, R39). -/
  cfg : Config
  /-- IN: the byte sequence of this decode; IN_LEN is its length (R50, R51). -/
  input : List Byte
  /-- Has a reset been applied since power-on (R231)? The model's own field. -/
  hasBeenReset : Bool
  /-- PHASE (R33). -/
  phase : Phase
  /-- CAUSE (R34). -/
  cause : Cause
  /-- HDR.WIDTH, HDR.HEIGHT, HDR.CHANNELS, HDR.COLORSPACE (R28). -/
  hdr : Header
  /-- IN_POS, the program counter (R26). -/
  inPos : Nat
  /-- OUT_POS (R31). -/
  outPos : Nat
  /-- PX (R20). -/
  px : Pixel
  /-- CACHE[0..63] (R24). -/
  cache : Vector Pixel 64
  /-- OUT (R53). -/
  out : Memory
  /-- How many times an unspecified value has been drawn. The model's own field, read only to draw the next. -/
  freeCount : Nat
  deriving DecidableEq, Repr

/-- Why a step stops with a fault: only step raises these, never an instruction. -/
inductive Fault where
  /-- A step in PHASE = DONE: the decode is over and no step is enabled until reset (R133). Raised by `step`. Safe. -/
  | decodeDone
  /-- A step in PHASE = ERROR: the error is sticky and no step is enabled until reset (R201). Raised by `step`. Safe. -/
  | decodeFailed
  deriving DecidableEq, Repr

/-- Why there is no meaning. -/
inductive Refusal where
  /-- An instruction without a meaning yet. Raised by no arm of `exec`. Safe. -/
  | notModelled (mnemonic : String)
  /-- A step before the first reset after power-on: all state is unspecified and no step is enabled (R231, U13).
  Raised by `step`. Safe. -/
  | notReset
  /-- A header step outside PHASE = HEADER or an opcode step outside PHASE = PIXELS: the precondition of R110 or R132
  fails. Raised by every meaning, never reached through `step`. Safe. -/
  | notEnabled
  /-- A header whose TOTAL exceeds OUT_CAPACITY: "the header step has no successor state" (R117, U12).
  Raised by HEADER. Safe. -/
  | exceedsOutCapacity
  deriving DecidableEq, Repr

/-- The state a reset leaves, for any launch inputs (R40, R230, R231). Draw `n` of the free header values stands in the
header registers, which hold no value the spec states (R29; log entry 3). -/
def State.launch (cfg : Config) (input : List Byte) (n : Nat) : State where
  cfg := cfg
  input := input
  hasBeenReset := true
  phase := .header
  cause := .none
  hdr := Config.freeHeader n
  inPos := 0
  outPos := 0
  px := opaqueBlack
  cache := Vector.replicate 64 zeroPixel
  out := []
  freeCount := n + 1

/-- The machine right after reset with nothing placed in IN and the default parameters (R40; log entries 1, 2, 3, 5). -/
def State.reset : State := State.launch Config.default [] 0

end Sys2Proof.Machine
end

