-- ==== Sys2Proof/Machine/Flags.lean ====
section
/-! DEFINITION. The block has no flags or condition codes (R35); its only status is PHASE and CAUSE. Here is what PHASE
becomes at the end of a step that raises nothing. -/

namespace Sys2Proof.Machine

/-- PHASE after a header step: DONE if TOTAL is 0, else PIXELS (R110, R116). -/
def phaseAfterHeader (total : Nat) : Phase := if total = 0 then .done else .pixels

/-- PHASE after an opcode step: DONE when OUT is exactly full, else unchanged (R131, R132). -/
def phaseAfterOpcode (outPos total : Nat) (phase : Phase) : Phase := if outPos = total then .done else phase

end Sys2Proof.Machine
end

