-- ==== Sys2Proof/Syntax.lean ====
section
/-! DEFINITION. The instructions: one constructor per row of spec/opcode_table.json, carrying the fields of its
encoding (R81, R82) and nothing computed from them. -/

namespace Sys2Proof

/-- The HEADER operation and the six opcodes (R84). -/
inductive Instr where
  /-- HEADER, format HDR: the magic tag (byte 0 most significant), width, height, channels, colorspace (R81). -/
  | header (magic width height : BitVec 32) (channels colorspace : Byte)
  /-- RGB, format T4: three literal components (R82, R89). -/
  | rgb (r g b : Byte)
  /-- RGBA, format T5: four literal components (R82, R89). -/
  | rgba (r g b a : Byte)
  /-- INDEX, format T1: a cache slot number (R85). -/
  | index (idx : BitVec 6)
  /-- DIFF, format T1D: three raw 2-bit fields, not yet biased (R86). -/
  | diff (fr fg fb : BitVec 2)
  /-- LUMA, format T2: the six payload bits of the tag, not yet masked, and the two raw nibbles of byte 1 (R87). -/
  | luma (fdg : BitVec 6) (frg fbg : BitVec 4)
  /-- RUN, format T1: the raw length field, not yet biased (R88). -/
  | run (frun : BitVec 6)
  deriving DecidableEq, Repr

/-- Where in the stream an instruction can stand: HEADER is selected by position, offset 0, and the opcodes by their
first byte from there on (R80, R84). -/
inductive Place where
  | start
  | stream
  deriving DecidableEq, Repr

/-- The place at which each instruction is read (R80, R84). -/
def Instr.place : Instr → Place
  | .header _ _ _ _ _ => .start
  | .rgb _ _ _ => .stream
  | .rgba _ _ _ _ => .stream
  | .index _ => .stream
  | .diff _ _ _ => .stream
  | .luma _ _ _ => .stream
  | .run _ => .stream

/-- How many bytes of IN each instruction takes (R27, R61, R80, R91). -/
def Instr.length : Instr → Nat
  | .header _ _ _ _ _ => 14
  | .rgb _ _ _ => 4
  | .rgba _ _ _ _ => 5
  | .index _ => 1
  | .diff _ _ _ => 1
  | .luma _ _ _ => 2
  | .run _ => 1

end Sys2Proof
end

