-- ==== Sys2Proof/Machine/Operands.lean ====
section
/-! DEFINITION. Every operand form and every computed value: biased fields, component arithmetic, the LUMA mask, the run
length, the hash, samples per pixel and TOTAL. No definition here reads the state. -/

namespace Sys2Proof.Machine

/-- An unsigned field minus its constant bias, a mathematical integer (R90, R173). -/
def biased {n : Nat} (bias : Nat) (field : BitVec n) : Int := (field.toNat : Int) - (bias : Int)

/-- A DIFF delta: 2-bit field minus 2, in -2..1 (R86). -/
def diffDelta (field : BitVec 2) : Int := biased 2 field

/-- The bits of the tag's payload that LUMA_DG_MASK keeps (R87, D2). -/
def lumaMaskBits : LumaDgMask → BitVec 6
  | .sixBits => 0x3F
  | .fiveBits => 0x1F

/-- The LUMA green delta: (tag & LUMA_DG_MASK) - 32 (R87, R171). The mask never reaches the tag's prefix, so it acts on
the six payload bits. -/
def lumaGreenDelta (mask : LumaDgMask) (fdg : BitVec 6) : Int := biased 32 (fdg &&& lumaMaskBits mask)

/-- A LUMA red or blue delta relative to green: 4-bit field minus 8, in -8..7 (R87). -/
def lumaRelativeDelta (field : BitVec 4) : Int := biased 8 field

/-- RUN_BIAS as a number (R6). -/
def runBiasValue : RunBias → Nat
  | .zero => 0
  | .one => 1

/-- The run length n = frun + RUN_BIAS (R88, R180). -/
def runLength (bias : RunBias) (frun : BitVec 6) : Nat := frun.toNat + runBiasValue bias

/-- Component arithmetic: (c + d) mod 256, wrapping in both directions (R9, R172). -/
def addDelta (c : Byte) (d : Int) : Byte := BitVec.ofInt 8 ((c.toNat : Int) + d)

/-- A pixel moved by one delta per colour channel, alpha unchanged (R170, R171). -/
def shiftPixel (p : Pixel) (dr dg db : Int) : Pixel :=
  ⟨addDelta p.r dr, addDelta p.g dg, addDelta p.b db, p.a⟩

/-- hash(p) = (3r + 5g + 7b + 11a) mod 64, products and sum exact (R136). -/
def pixelHash (p : Pixel) : Fin 64 :=
  Fin.ofNat 64 (p.r.toNat * 3 + p.g.toNat * 5 + p.b.toNat * 7 + p.a.toNat * 11)

/-- SPP: 4 if HDR.CHANNELS is 4, else 3 (R32). -/
def spp (h : Header) : Nat := if h.channels = 4 then 4 else 3

/-- TOTAL, the exact product of the header registers (R30, D8). -/
def total (h : Header) : Nat := h.width.toNat * h.height.toNat * h.channels.toNat

/-- The samples a pixel writes to OUT, in order: r, g, b, and a only when channels is 4 (R58, R135). -/
def samples (h : Header) (p : Pixel) : List Byte :=
  if h.channels = 4 then [p.r, p.g, p.b, p.a] else [p.r, p.g, p.b]

/-- Does OUT_CAPACITY hold `n` samples (R117)? -/
def fitsCapacity (capacity : Option Nat) (n : Nat) : Bool :=
  match capacity with
  | none => true
  | some c => decide (n ≤ c)

end Sys2Proof.Machine
end

