-- ==== Sys2Proof/Machine/Ops.lean ====
section
/-! DEFINITION. The named operations over memory and registers: OUT, fetching, the per-pixel commit, entering ERROR, the
end of a step, and reset, which is the only return from ERROR (R201). -/

namespace Sys2Proof.Machine

/-! The output space. -/

/-- The canonical form of OUT: indices strictly rising, so equal memories are equal lists. -/
def Memory.wf : Memory → Bool
  | [] => true
  | [_] => true
  | c :: d :: rest => decide (c.1 < d.1) && Memory.wf (d :: rest)

/-- The sample at an index; no value where nothing has been written (R53, D12). -/
def Memory.read : Memory → Nat → Option Byte
  | [], _ => none
  | c :: rest, a => if a = c.1 then some c.2 else Memory.read rest a

/-- MemWrite of one sample (R53), keeping the canonical form. -/
def Memory.write : Memory → Nat → Byte → Memory
  | [], a, v => [(a, v)]
  | c :: rest, a, v =>
    if a < c.1 then (a, v) :: c :: rest
    else if a = c.1 then (a, v) :: rest
    else c :: Memory.write rest a v

/-- MemWrite of consecutive samples from an index upward (R58, R135). -/
def Memory.writeList : Memory → Nat → List Byte → Memory
  | m, _, [] => m
  | m, a, v :: vs => Memory.writeList (Memory.write m a v) (a + 1) vs

/-! The input space. -/

/-- `pc <- pc + n` for bytes that Fetch has read (R27, R54). -/
def State.advanceIn (n : Nat) (s : State) : State := { s with inPos := s.inPos + n }

/-- Fetch(): the byte at pc and pc + 1, or TruncationError when IN is exhausted (R54). -/
def fetch (s : State) : Except Cause (Byte × State) :=
  match s.input[s.inPos]? with
  | none => .error .truncation
  | some b => .ok (b, s.advanceIn 1)

/-- `n` Fetches, for an instruction that already holds the bytes they read as its fields. -/
def fetchBytes : Nat → State → Except Cause State
  | 0, s => .ok s
  | n + 1, s =>
    match fetch s with
    | .ok (_, t) => fetchBytes n t
    | .error c => .error c

/-! The per-pixel commit. -/

/-- The writes of Commit(p): the samples to OUT, OUT_POS, PX and CACHE[hash(p)] (R135). -/
def State.emit (p : Pixel) (s : State) : State :=
  { s with
    out := Memory.writeList s.out s.outPos (samples s.hdr p)
    outPos := s.outPos + spp s.hdr
    px := p
    cache := s.cache.set (pixelHash p).val p }

/-- Commit(p): OverrunError, with nothing written, when fewer than SPP samples of room remain (R135, R138, D11). -/
def commit (p : Pixel) (s : State) : Except Cause State :=
  if s.outPos + spp s.hdr > total s.hdr then .error .overrun else .ok (s.emit p)

/-- `repeat n times: Commit(PX)` (R180). -/
def commitRun : Nat → State → Except Cause State
  | 0, s => .ok s
  | n + 1, s =>
    match commit s.px s with
    | .ok t => commitRun n t
    | .error c => .error c

/-! Header registers, the end of a step, and ERROR. -/

/-- The header registers written by the header step (R110). -/
def State.setHeader (h : Header) (s : State) : State := { s with hdr := h }

/-- The last line of the header step (R110). -/
def State.endHeader (s : State) : State := { s with phase := phaseAfterHeader (total s.hdr) }

/-- The last line of an opcode step (R132). -/
def State.endOpcode (s : State) : State := { s with phase := phaseAfterOpcode s.outPos (total s.hdr) s.phase }

/-- `raise E(code)`, the whole of error entry: PHASE = ERROR and CAUSE = code; PX, CACHE, HDR, IN_POS and OUT_POS take
free values and no sample of OUT has a value any more (R197, D10; log entry 4). IN and the parameters are no state of the
decode and stay (R39, R51). -/
def State.raise (c : Cause) (s : State) : State where
  cfg := s.cfg
  input := s.input
  hasBeenReset := s.hasBeenReset
  phase := .error
  cause := c
  hdr := Config.freeHeader s.freeCount
  inPos := Config.freeInPos s.freeCount
  outPos := (Config.freeOutPos s.freeCount).toNat
  px := Config.freePixel s.freeCount
  cache := Config.freeCache s.freeCount
  out := []
  freeCount := s.freeCount + 1

/-- The reset input, in any phase, with the IN the host now supplies (R201, R206, R230, R231): the only exit from DONE and
ERROR. Nothing of the decode in progress survives; the parameters are the block's own. -/
def State.applyReset (input : List Byte) (s : State) : State := State.launch s.cfg input s.freeCount

/-- What every opcode shares (R132): the step is taken in PIXELS only, all its bytes are fetched before its commits
(R198, D25), an error enters ERROR, and success ends with the loop test. -/
def opcodeStep (length : Nat) (commits : State → Except Cause State) (s : State) :
    Host.Outcome State Fault Refusal :=
  if s.phase = .pixels then
    match fetchBytes length s with
    | .error c => .next (s.raise c)
    | .ok t =>
      match commits t with
      | .error c => .next (s.raise c)
      | .ok u => .next u.endOpcode
  else .refused .notEnabled

end Sys2Proof.Machine
end

