-- ==== Sys2Proof/Machine/Delta.lean ====
section
/-! DEFINITION. The delta opcodes DIFF and LUMA (44_delta.md). -/

namespace Sys2Proof.Machine

/-- The pixel DIFF emits: each colour component of PX plus its own delta, modulo 256; alpha of PX (R170, R174). -/
def diffPixel (fr fg fb : BitVec 2) (s : State) : Pixel :=
  shiftPixel s.px (diffDelta fr) (diffDelta fg) (diffDelta fb)

/-- DIFF: small per-channel differences from the previous pixel (R170). -/
def execDiff (fr fg fb : BitVec 2) (s : State) : Host.Outcome State Fault Refusal :=
  opcodeStep 1 (fun t => commit (diffPixel fr fg fb t) t) s

/-- The pixel LUMA emits: green moves by dg, red and blue by dg plus their own relative delta; alpha of PX
(R171, R175). -/
def lumaPixel (fdg : BitVec 6) (frg fbg : BitVec 4) (s : State) : Pixel :=
  let dg := lumaGreenDelta s.cfg.lumaDgMask fdg
  shiftPixel s.px (dg + lumaRelativeDelta frg) dg (dg + lumaRelativeDelta fbg)

/-- LUMA: green difference, and red and blue differences relative to it (R171). -/
def execLuma (fdg : BitVec 6) (frg fbg : BitVec 4) (s : State) : Host.Outcome State Fault Refusal :=
  opcodeStep 2 (fun t => commit (lumaPixel fdg frg fbg t) t) s

end Sys2Proof.Machine
end

