-- ==== Sys2Proof/WellFormed.lean ====
section
/-! DEFINITION. Which terms of Instr a well-formed stream holds: the fixed magic and colorspace of a header (R81) and a
RUN field that no other opcode takes (R88). An ill-formed header is still an instruction that runs: it raises FormatError
(R110). An ill-formed RUN has no encoding. -/

namespace Sys2Proof

/-- The magic tag: ASCII q, o, i, f, byte 0 most significant (R62, R81; PRESUMED for the four codes, log entry 21). -/
def magicTag : BitVec 32 := 0x716F6966

/-- The check on each instruction's fields (R81, R88). -/
def Instr.wellFormed : Instr → Bool
  | .header magic _ _ _ colorspace => magic == magicTag && (colorspace == 0 || colorspace == 1)
  | .rgb _ _ _ => true
  | .rgba _ _ _ _ => true
  | .index _ => true
  | .diff _ _ _ => true
  | .luma _ _ _ => true
  | .run frun => decide (frun.toNat ≤ 61)

end Sys2Proof
end

