-- ==== Sys2Proof/Machine/HeaderStep.lean ====
section
/-! DEFINITION. The meaning of HEADER (40_header.md). -/

namespace Sys2Proof.Machine

/-- Is the colorspace byte 0 or 1 (R114)? -/
def colorspaceOk (colorspace : Byte) : Bool := colorspace == 0 || colorspace == 1

/-- The checks and writes of the header step in the order of R111: four bytes, the magic, ten bytes, the colorspace, then
the four header registers (R110, R112, R113). -/
def headerChecks (magic : BitVec 32) (h : Header) (s : State) : Except Cause State :=
  match fetchBytes 4 s with
  | .error c => .error c
  | .ok t =>
    if magic = magicTag then
      match fetchBytes 10 t with
      | .error c => .error c
      | .ok u => if colorspaceOk h.colorspace then .ok (u.setHeader h) else .error .formatColorspace
    else .error .formatMagic

/-- HEADER: parse and validate the 14-byte header (R110 to R117). A TOTAL beyond OUT_CAPACITY has no successor state
(R117, D8). -/
def execHeader (magic width height : BitVec 32) (channels colorspace : Byte) (s : State) :
    Host.Outcome State Fault Refusal :=
  if s.phase = .header then
    match headerChecks magic ⟨width, height, channels, colorspace⟩ s with
    | .error c => .next (s.raise c)
    | .ok t =>
      if fitsCapacity t.cfg.outCapacity (total t.hdr) then .next t.endHeader
      else .refused .exceedsOutCapacity
  else .refused .notEnabled

end Sys2Proof.Machine
end

