-- ==== Sys2Proof/Machine/Index.lean ====
section
/-! DEFINITION. The cache-lookup opcode INDEX (43_index.md). -/

namespace Sys2Proof.Machine

/-- The pixel INDEX emits: the slot's four components, verbatim (R85, R160). -/
def indexPixel (idx : BitVec 6) (s : State) : Pixel := s.cache.get idx.toFin

/-- INDEX: emit the pixel held in a cache slot; the slot is read before Commit writes (R160, R242). -/
def execIndex (idx : BitVec 6) (s : State) : Host.Outcome State Fault Refusal :=
  opcodeStep 1 (fun t => commit (indexPixel idx t) t) s

end Sys2Proof.Machine
end

