-- ==== Sys2Proof/Machine/Literal.lean ====
section
/-! DEFINITION. The literal-pixel opcodes RGB and RGBA (42_literal.md). -/

namespace Sys2Proof.Machine

/-- The pixel RGB emits: the three operand bytes and the alpha of PX as it was (R150, R152). -/
def rgbPixel (r g b : Byte) (s : State) : Pixel := ⟨r, g, b, s.px.a⟩

/-- RGB: new colour, alpha inherited (R150). -/
def execRgb (r g b : Byte) (s : State) : Host.Outcome State Fault Refusal :=
  opcodeStep 4 (fun t => commit (rgbPixel r g b t) t) s

/-- RGBA: new colour and new alpha; no register is read (R151, R153). -/
def execRgba (r g b a : Byte) (s : State) : Host.Outcome State Fault Refusal :=
  opcodeStep 5 (fun t => commit ⟨r, g, b, a⟩ t) s

end Sys2Proof.Machine
end

