-- ==== Sys2Proof/Machine/Run.lean ====
section
/-! DEFINITION. The run-length opcode RUN (45_run.md). -/

namespace Sys2Proof.Machine

/-- RUN: frun + RUN_BIAS commits of PX, in one step (R180 to R185). -/
def execRun (frun : BitVec 6) (s : State) : Host.Outcome State Fault Refusal :=
  opcodeStep 1 (fun t => commitRun (runLength t.cfg.runBias frun) t) s

end Sys2Proof.Machine
end

