-- ==== Sys2Proof/Machine/Dispatch.lean ====
section
/-! DEFINITION. One arm per constructor of Instr, each one call of its meaning. -/

namespace Sys2Proof.Machine

def exec (i : Instr) (s : State) : Host.Outcome State Fault Refusal :=
  match i with
  | .header magic width height channels colorspace => Sys2Proof.Machine.execHeader magic width height channels colorspace s
  | .rgb r g b => Sys2Proof.Machine.execRgb r g b s
  | .rgba r g b a => Sys2Proof.Machine.execRgba r g b a s
  | .index idx => Sys2Proof.Machine.execIndex idx s
  | .diff fr fg fb => Sys2Proof.Machine.execDiff fr fg fb s
  | .luma fdg frg fbg => Sys2Proof.Machine.execLuma fdg frg fbg s
  | .run frun => Sys2Proof.Machine.execRun frun s

end Sys2Proof.Machine
end

