-- ==== Sys2Proof/Decode.lean ====
section
/-! DEFINITION. From bytes to instructions and back: the dispatch on the first byte (R83, R84, R134), the decoder, total
on any bytes and rejecting by name, and the encoder of the same formats (R81, R82, R95). -/

namespace Sys2Proof

/-- The big-endian value of four bytes, the first the most significant (R56). -/
def be32 (b0 b1 b2 b3 : Byte) : BitVec 32 :=
  BitVec.ofNat 32 (b0.toNat * 2 ^ 24 + b1.toNat * 2 ^ 16 + b2.toNat * 2 ^ 8 + b3.toNat)

/-- The four bytes of a big-endian 32-bit value, the most significant first (R56). -/
def be32Bytes (w : BitVec 32) : List Byte :=
  [w.extractLsb' 24 8, w.extractLsb' 16 8, w.extractLsb' 8 8, w.extractLsb' 0 8]

/-- The six opcodes that a first byte can select (R84). -/
inductive Opcode where
  | rgb
  | rgba
  | index
  | diff
  | luma
  | run
  deriving DecidableEq, Repr

/-- Dispatch by the first byte: the two exact matches first, then the 2-bit prefix (R83, R134). Total on every byte. -/
def dispatch (tag : Byte) : Opcode :=
  if tag = 0xFE then .rgb
  else if tag = 0xFF then .rgba
  else if tag.extractLsb' 6 2 = 0 then .index
  else if tag.extractLsb' 6 2 = 1 then .diff
  else if tag.extractLsb' 6 2 = 2 then .luma
  else .run

/-- The length of an opcode, a function of its first byte alone (R91). -/
def opcodeLength : Opcode → Nat
  | .rgb => 4
  | .rgba => 5
  | .index => 1
  | .diff => 1
  | .luma => 2
  | .run => 1

/-- Why bytes are no whole instruction. -/
inductive Reject where
  /-- IN ends before the instruction's last byte: the step raises TruncationError (R54, R132). Safe. -/
  | exhausted
  /-- IN ends inside the header, but its four magic bytes are there and wrong: the header step raises FormatError
  before it misses a byte (R111). Safe. -/
  | wrongMagic
  deriving DecidableEq, Repr

/-- Decode the header at the start of the stream (R81). Any magic, channels and colorspace decode; their checks belong to
the header step (R110). -/
def decodeHeader : List Byte → Except Reject (Instr × List Byte)
  | m0 :: m1 :: m2 :: m3 :: w0 :: w1 :: w2 :: w3 :: h0 :: h1 :: h2 :: h3 :: c :: cs :: rest =>
    .ok (.header (be32 m0 m1 m2 m3) (be32 w0 w1 w2 w3) (be32 h0 h1 h2 h3) c cs, rest)
  | m0 :: m1 :: m2 :: m3 :: _ =>
    .error (if be32 m0 m1 m2 m3 = magicTag then .exhausted else .wrongMagic)
  | _ => .error .exhausted

/-- The operand bytes of the opcode that `tag` selected, in stream order (R57, R82, R85 to R89). Operand bytes are never
read as tags (R91). -/
def decodeOperands (tag : Byte) (rest : List Byte) : Opcode → Except Reject (Instr × List Byte)
  | .rgb =>
    match rest with
    | r :: g :: b :: rest' => .ok (.rgb r g b, rest')
    | _ => .error .exhausted
  | .rgba =>
    match rest with
    | r :: g :: b :: a :: rest' => .ok (.rgba r g b a, rest')
    | _ => .error .exhausted
  | .index => .ok (.index (tag.extractLsb' 0 6), rest)
  | .diff => .ok (.diff (tag.extractLsb' 4 2) (tag.extractLsb' 2 2) (tag.extractLsb' 0 2), rest)
  | .luma =>
    match rest with
    | byte :: rest' =>
      .ok (.luma (tag.extractLsb' 0 6) (byte.extractLsb' 4 4) (byte.extractLsb' 0 4), rest')
    | _ => .error .exhausted
  | .run => .ok (.run (tag.extractLsb' 0 6), rest)

/-- Decode the opcode at the head of the stream (R84, R92). -/
def decodeOpcode : List Byte → Except Reject (Instr × List Byte)
  | [] => .error .exhausted
  | tag :: rest => decodeOperands tag rest (dispatch tag)

/-- Decode at a place of the stream: the instruction and the bytes after it, or a rejection by name. -/
def decode : Place → List Byte → Except Reject (Instr × List Byte)
  | .start, bytes => decodeHeader bytes
  | .stream, bytes => decodeOpcode bytes

/-- The bytes of an instruction, from the same formats (R81, R82, R84, R95). -/
def encode : Instr → List Byte
  | .header magic width height channels colorspace =>
    be32Bytes magic ++ be32Bytes width ++ be32Bytes height ++ [channels, colorspace]
  | .rgb r g b => [0xFE, r, g, b]
  | .rgba r g b a => [0xFF, r, g, b, a]
  | .index idx => [BitVec.ofNat 8 idx.toNat]
  | .diff fr fg fb => [BitVec.ofNat 8 (0x40 + fr.toNat * 16 + fg.toNat * 4 + fb.toNat)]
  | .luma fdg frg fbg => [BitVec.ofNat 8 (0x80 + fdg.toNat), BitVec.ofNat 8 (frg.toNat * 16 + fbg.toNat)]
  | .run frun => [BitVec.ofNat 8 (0xC0 + frun.toNat)]

/-- The `n` lowest bytes of `w`, bits 7..0 first: the byte order in which the opcode table numbers an instruction's bits
(log entry 26). -/
def tableBytes : Nat → Nat → List Byte
  | 0, _ => []
  | n + 1, w => BitVec.ofNat 8 w :: tableBytes n (w / 256)

/-- Which place a table row's word is read at, since a HEADER has no tag (R84): rows of up to two bytes are opcodes, and
of the longer ones those with the tag of RGB or RGBA and at most five bytes (R91); the rest are HEADER rows
(log entry 26). -/
def tablePlace (nbits w : Nat) : Place :=
  if nbits ≤ 16 then .stream
  else
    match dispatch (BitVec.ofNat 8 w) with
    | .rgb => if nbits ≤ 40 then .stream else .start
    | .rgba => if nbits ≤ 40 then .stream else .start
    | .index => .start
    | .diff => .start
    | .luma => .start
    | .run => .start

/-- The bytes an opcode-table word stands for: the longest instruction of its place, all bits above `nbits` zero. -/
def tableWordBytes (nbits w : Nat) : List Byte :=
  match tablePlace nbits w with
  | .stream => tableBytes 5 (w % 2 ^ nbits)
  | .start => tableBytes 14 (w % 2 ^ nbits)

/-- The instruction the decoder reads from an opcode-table word. -/
def decodeTableWord (nbits w : Nat) : Option Instr :=
  match decode (tablePlace nbits w) (tableWordBytes nbits w) with
  | .ok (i, _) => some i
  | .error _ => none

end Sys2Proof
end

