-- ==== Sys2Proof/Machine/Fetch.lean ====
section
/-! DEFINITION. Fetching an instruction: which bytes of IN the next step decodes, and which error a step raises when they
are no whole instruction. And how an opcode-table word is placed so that the next step runs it. -/

namespace Sys2Proof.Machine

/-- The bytes from pc to the end of IN. -/
def State.remaining (s : State) : List Byte := s.input.drop s.inPos

/-- The instruction the next step runs, at the given place of the stream (R110, R132). -/
def fetchInstr (place : Place) (s : State) : Except Reject Instr :=
  match decode place s.remaining with
  | .ok (i, _) => .ok i
  | .error e => .error e

/-- The error a step raises when IN ends inside its instruction: TruncationError (R54, R112, R132), but FormatError for a
header whose first four bytes are there and wrong (R111). -/
def rejectCause : Reject → Cause
  | .exhausted => .truncation
  | .wrongMagic => .formatMagic

/-- Overwrite the bytes of IN at an offset, lengthening IN with zeros where it is shorter. -/
def placeBytes (input : List Byte) (at_ : Nat) (bytes : List Byte) : List Byte :=
  (input ++ List.replicate at_ 0).take at_ ++ bytes ++ input.drop (at_ + bytes.length)

/-- The header that stands before an opcode placed by `placeOpcode`: 64 x 1, 4 channels, room for every RUN
(log entry 11). -/
def placedHeader : Header := ⟨64, 1, 4, 0⟩

/-- The bytes of `placedHeader` as a HEADER (R95). -/
def placedHeaderBytes : List Byte :=
  encode (.header magicTag placedHeader.width placedHeader.height placedHeader.channels placedHeader.colorspace)

/-- Place an opcode's bytes where the next step fetches. In PIXELS that is at pc. In any other phase no opcode is fetched,
so the block is put behind a parsed header first: the state a header step leaves on IN = header ++ bytes
(log entry 11). -/
def placeOpcode (bytes : List Byte) (s : State) : State :=
  match s.phase with
  | .pixels => { s with hasBeenReset := true, input := placeBytes s.input s.inPos bytes }
  | _ =>
    { s with
      hasBeenReset := true
      input := placedHeaderBytes ++ bytes
      phase := .pixels
      cause := .none
      hdr := placedHeader
      inPos := placedHeaderBytes.length
      outPos := 0
      out := [] }

/-- Place a header's bytes where the next step fetches: in HEADER that is at pc, and any other phase is left for HEADER
with pc at offset 0. -/
def placeHeader (bytes : List Byte) (s : State) : State :=
  match s.phase with
  | .header => { s with hasBeenReset := true, input := placeBytes s.input s.inPos bytes }
  | _ => { s with hasBeenReset := true, input := bytes, phase := .header, cause := .none, inPos := 0 }

end Sys2Proof.Machine
end

