-- ==== Sys2Proof/Machine/Step.lean ====
section
/-! DEFINITION. One step of the block (R11): the header step in HEADER, an opcode step in PIXELS, none in DONE and ERROR
(R33, R131, R133). -/

namespace Sys2Proof.Machine

/-- Fetch the instruction at the given place and run it, or raise what its missing bytes raise. -/
def stepAt (place : Place) (s : State) : Host.Outcome State Fault Refusal :=
  match fetchInstr place s with
  | .ok i => exec i s
  | .error e => .next (s.raise (rejectCause e))

/-- One step. -/
def step (s : State) : Host.Outcome State Fault Refusal :=
  if s.hasBeenReset then
    match s.phase with
    | .header => stepAt .start s
    | .pixels => stepAt .stream s
    | .done => .fault .decodeDone
    | .error => .fault .decodeFailed
  else .refused .notReset

/-- The state in which the very next step runs the instruction an opcode-table word stands for (log entries 11, 26). -/
def State.withFetchWord (s : State) (nbits w : Nat) : State :=
  match tablePlace nbits w with
  | .stream => placeOpcode (tableWordBytes nbits w) s
  | .start => placeHeader (tableWordBytes nbits w) s

end Sys2Proof.Machine
end

