-- ==== Sys2Proof/Machine/Port.lean ====
section
/-! DEFINITION. The host's side: what the status port shows in each phase (R207), what a decode gives back (R130, R209,
R210), and the decode as a whole. -/

namespace Sys2Proof.Machine

/-- The registers the status port names (R205). PX and CACHE are on no port (R207). -/
inductive PortReg where
  | phase
  | cause
  | width
  | height
  | channels
  | colorspace
  | outPos
  | inPos
  deriving DecidableEq, Repr

/-- Does the header hold a value the host may read: in PIXELS and DONE (R29, R207)? -/
def headerReadable : Phase → Bool
  | .header => false
  | .pixels => true
  | .done => true
  | .error => false

/-- A read of the status port: no value where R207 allows none, and none before the first reset (R231). -/
def readPort (reg : PortReg) (s : State) : Option Nat :=
  if s.hasBeenReset then
    match reg with
    | .phase => some s.phase.code.toNat
    | .cause => some s.cause.code.toNat
    | .width => if headerReadable s.phase then some s.hdr.width.toNat else none
    | .height => if headerReadable s.phase then some s.hdr.height.toNat else none
    | .channels => if headerReadable s.phase then some s.hdr.channels.toNat else none
    | .colorspace => if headerReadable s.phase then some s.hdr.colorspace.toNat else none
    | .outPos => if s.phase = .done then some s.outPos else none
    | .inPos => if s.phase = .done then some s.inPos else none
  else none

/-- A host read of one sample of OUT: at DONE only, and only below TOTAL (R207, R209). -/
def readOut (index : Nat) (s : State) : Option Byte :=
  if s.hasBeenReset ∧ s.phase = .done ∧ index < total s.hdr then Memory.read s.out index else none

/-- What a decode has given back (R130): nothing yet, the Header and the samples, or an error class. -/
inductive DecodeResult where
  | running
  | returned (header : Header) (samples : List Byte)
  | failed (errorClass : Option ErrorClass)
  deriving DecidableEq, Repr

/-- The result of a decode by its phase (R130, R209, R210). DESIGN CHOICE (log entry 27): on a state that was never reset,
of which the spec makes no claim (R231, U13), it answers by PHASE all the same. -/
def result (s : State) : DecodeResult :=
  match s.phase with
  | .header => .running
  | .pixels => .running
  | .done => .returned s.hdr ((List.range (total s.hdr)).filterMap fun a => Memory.read s.out a)
  | .error => .failed s.cause.errorClass

/-- Is the decode over (R133)? -/
def Phase.final : Phase → Bool
  | .header => false
  | .pixels => false
  | .done => true
  | .error => true

/-- Up to `fuel` steps, ending when the decode is over (R130, R133). DESIGN CHOICE (log entry 27): a state that was never
reset counts as over when its PHASE says so; in any other phase `step` refuses it. -/
def runToEnd : Nat → State → Host.Outcome State Fault Refusal
  | 0, s => .next s
  | fuel + 1, s =>
    if s.phase.final then .next s
    else
      match step s with
      | .next t => runToEnd fuel t
      | .fault f => .fault f
      | .refused r => .refused r

/-- `decode(byte_source)` on a block in any state: reset with IN in place, then steps to the end; IN_LEN + 2 steps are
always enough (R130, R142). A header beyond OUT_CAPACITY gives no result (R117). -/
def decodeStream (input : List Byte) (s : State) : Option DecodeResult :=
  match runToEnd (input.length + 2) (s.applyReset input) with
  | .next t => some (result t)
  | .fault _ => none
  | .refused _ => none

end Sys2Proof.Machine
end

