-- ==== Sys2Proof/Machine/Pseudocode.lean ====
section
/-! DEFINITION. The spec's pseudocode, line by line, over its own primitives (R10): a second reading of the same rules,
in which an opcode fetches its operand bytes itself. No step runs it; a statement says that `step` does what it does. -/

namespace Sys2Proof.Machine

/-- A piece of pseudocode: it reads and writes the state, or raises and so ends the step. -/
abbrev Pseudo (α : Type) := StateT State (Except Cause) α

/-- `if b then raise` (R110, R135). -/
def pRaiseIf (b : Bool) (c : Cause) : Pseudo Unit := fun s => if b then .error c else .ok ((), s)

/-- An assignment to registers. -/
def pAssign (f : State → State) : Pseudo Unit := fun s => .ok ((), f s)

/-- The registers as they stand. -/
def pRegs : Pseudo State := fun s => .ok (s, s)

/-- `Fetch()` (R54): `pc >= IN_LEN` raises, else IN[pc] and pc + 1. -/
def pFetch : Pseudo Byte := fun s =>
  if h : s.inPos < s.input.length then .ok (s.input[s.inPos], { s with inPos := s.inPos + 1 }) else .error .truncation

/-- `MemWrite(addr, 1, v)` (R53). -/
def pMemWrite (addr : Nat) (v : Byte) : Pseudo Unit :=
  pAssign fun s => { s with out := Memory.write s.out addr v }

/-- `(x) mod 256` of a mathematical integer, as a byte (R9). -/
def mod256 (x : Int) : Byte := BitVec.ofNat 8 (x % 256).toNat

/-- `Commit(p)` (R135). -/
def pCommit (p : Pixel) : Pseudo Unit := do
  let s ← pRegs
  pRaiseIf (decide (s.outPos + spp s.hdr > total s.hdr)) .overrun
  pMemWrite s.outPos p.r
  pMemWrite (s.outPos + 1) p.g
  pMemWrite (s.outPos + 2) p.b
  bif s.hdr.channels == 4 then pMemWrite (s.outPos + 3) p.a else pure ()
  pAssign fun t => { t with outPos := t.outPos + spp t.hdr }
  pAssign fun t => { t with px := p }
  pAssign fun t => { t with cache := t.cache.set (pixelHash p).val p }

/-- `ExecRGB` (R150). -/
def pExecRgb : Pseudo Unit := do
  let r ← pFetch
  let g ← pFetch
  let b ← pFetch
  let s ← pRegs
  pCommit ⟨r, g, b, s.px.a⟩

/-- `ExecRGBA` (R151). -/
def pExecRgba : Pseudo Unit := do
  let r ← pFetch
  let g ← pFetch
  let b ← pFetch
  let a ← pFetch
  pCommit ⟨r, g, b, a⟩

/-- `ExecINDEX` (R160). -/
def pExecIndex (tag : Byte) : Pseudo Unit := do
  let s ← pRegs
  pCommit (s.cache.get (Fin.ofNat 64 (tag &&& 0x3F).toNat))

/-- `ExecDIFF` (R170). -/
def pExecDiff (tag : Byte) : Pseudo Unit := do
  let dr : Int := (((tag >>> 4) &&& 3).toNat : Int) - 2
  let dg : Int := (((tag >>> 2) &&& 3).toNat : Int) - 2
  let db : Int := ((tag &&& 3).toNat : Int) - 2
  let s ← pRegs
  pCommit ⟨mod256 (s.px.r.toNat + dr), mod256 (s.px.g.toNat + dg), mod256 (s.px.b.toNat + db), s.px.a⟩

/-- LUMA_DG_MASK as the byte that masks the tag (R6). -/
def lumaMaskByte : LumaDgMask → Byte
  | .sixBits => 0x3F
  | .fiveBits => 0x1F

/-- `ExecLUMA` (R171). -/
def pExecLuma (tag : Byte) : Pseudo Unit := do
  let s ← pRegs
  let dg : Int := ((tag &&& lumaMaskByte s.cfg.lumaDgMask).toNat : Int) - 32
  let byte ← pFetch
  let drDg : Int := (((byte >>> 4) &&& 0xF).toNat : Int) - 8
  let dbDg : Int := ((byte &&& 0xF).toNat : Int) - 8
  let s ← pRegs
  pCommit ⟨mod256 (s.px.r.toNat + dg + drDg), mod256 (s.px.g.toNat + dg), mod256 (s.px.b.toNat + dg + dbDg), s.px.a⟩

/-- `repeat n times: Commit(PX)` (R180). -/
def pRepeatCommit : Nat → Pseudo Unit
  | 0 => pure ()
  | n + 1 => do
    let s ← pRegs
    pCommit s.px
    pRepeatCommit n

/-- `ExecRUN` (R180). -/
def pExecRun (tag : Byte) : Pseudo Unit := do
  let s ← pRegs
  pRepeatCommit ((tag &&& 0x3F).toNat + runBiasValue s.cfg.runBias)

/-- The body of the opcode that the tag selects (R132, R134). -/
def pExecOpcode (tag : Byte) : Opcode → Pseudo Unit
  | .rgb => pExecRgb
  | .rgba => pExecRgba
  | .index => pExecIndex tag
  | .diff => pExecDiff tag
  | .luma => pExecLuma tag
  | .run => pExecRun tag

/-- `OpcodeStep` (R132). -/
def pOpcodeStep : Pseudo Unit := do
  let tag ← pFetch
  pExecOpcode tag (dispatch tag)
  pAssign fun s => if s.outPos = total s.hdr then { s with phase := .done } else s

/-- `HeaderStep` from its second part on: the ten bytes after the magic (R110, R112, R113, R114). -/
def pHeaderFields : Pseudo Unit := do
  let w0 ← pFetch
  let w1 ← pFetch
  let w2 ← pFetch
  let w3 ← pFetch
  let h0 ← pFetch
  let h1 ← pFetch
  let h2 ← pFetch
  let h3 ← pFetch
  let c ← pFetch
  let cs ← pFetch
  pRaiseIf (cs != 0 && cs != 1) .formatColorspace
  pAssign fun s => { s with hdr := ⟨be32 w0 w1 w2 w3, be32 h0 h1 h2 h3, c, cs⟩ }
  pAssign fun s => if total s.hdr = 0 then { s with phase := .done } else { s with phase := .pixels }

/-- `HeaderStep` (R110): the bytes of the magic are compared one by one, ASCII q, o, i, f (R57, R62, R115). -/
def pHeaderStep : Pseudo Unit := do
  let m0 ← pFetch
  let m1 ← pFetch
  let m2 ← pFetch
  let m3 ← pFetch
  pRaiseIf (!(m0 == 0x71 && m1 == 0x6F && m2 == 0x69 && m3 == 0x66)) .formatMagic
  pHeaderFields

/-- What a piece of pseudocode run as a step leads to (R197). -/
def pseudoOutcome (code : Pseudo Unit) (s : State) : Host.Outcome State Fault Refusal :=
  match code s with
  | .ok (_, t) => .next t
  | .error c => .next (s.raise c)

end Sys2Proof.Machine
end

