-- ==== Sys2Proof/Safety.lean ====
section
/-! DEFINITION. What statements about the block are made of: the invariant (R41, R42), what an opcode emits and leaves
alone, the history of a decode, and the relations of its independence rules. -/

namespace Sys2Proof.Machine

/-- The cache invariant: a slot holds the zero pixel, or a pixel at its own hash (R42). -/
def CacheInv (cache : Vector Pixel 64) : Prop :=
  ∀ i : Fin 64, cache.get i = zeroPixel ∨ pixelHash (cache.get i) = i

/-- What holds of the header registers and IN_POS once the header is parsed (R41 b, c; R117). -/
structure ParsedInv (s : State) : Prop where
  afterHeader : 14 ≤ s.inPos
  withinInput : s.inPos ≤ s.input.length
  wholePixels : spp s.hdr ∣ s.outPos
  colorspace : s.hdr.colorspace = 0 ∨ s.hdr.colorspace = 1
  capacity : fitsCapacity s.cfg.outCapacity (total s.hdr) = true

/-- The invariant of every step boundary (R41, R42), and that OUT is in canonical form. In ERROR only PHASE, CAUSE and the
width of OUT_POS are constrained (R197). -/
structure Inv (s : State) : Prop where
  outCanonical : Memory.wf s.out = true
  outPosWidth : s.outPos < 2 ^ 72
  causeIffError : s.phase = .error ↔ s.cause ≠ .none
  cacheInv : s.phase ≠ .error → CacheInv s.cache
  writtenBelowCursor : s.phase ≠ .error → s.out.map Prod.fst = List.range s.outPos
  inHeader : s.phase = .header →
    s.inPos = 0 ∧ s.outPos = 0 ∧ s.px = opaqueBlack ∧ s.cache = Vector.replicate 64 zeroPixel
  inPixels : s.phase = .pixels → ParsedInv s ∧ s.outPos < total s.hdr
  inDone : s.phase = .done → ParsedInv s ∧ s.outPos = total s.hdr

/-- `n` more bytes of IN can be fetched (R54). -/
abbrev Fetchable (n : Nat) (s : State) : Prop := s.inPos + n ≤ s.input.length

/-- `n` more pixels fit into OUT (R138). -/
abbrev HasRoom (n : Nat) (s : State) : Prop := s.outPos + n * spp s.hdr ≤ total s.hdr

/-- What an opcode step never changes unless it raises. -/
structure Untouched (s t : State) : Prop where
  cfg : t.cfg = s.cfg
  input : t.input = s.input
  hasBeenReset : t.hasBeenReset = s.hasBeenReset
  cause : t.cause = s.cause
  hdr : t.hdr = s.hdr
  freeCount : t.freeCount = s.freeCount

/-- Every effect of an opcode of `n` bytes that emits the pixel `p`, and that it changes nothing else: IN_POS, OUT_POS,
PX, one cache slot, SPP samples at OUT_POS, PHASE (R27, R32, R58, R131, R135). -/
structure EmitsOne (n : Nat) (p : Pixel) (s t : State) : Prop where
  inPos : t.inPos = s.inPos + n
  outPos : t.outPos = s.outPos + spp s.hdr
  px : t.px = p
  slot : t.cache.get (pixelHash p) = p
  otherSlots : ∀ j, j ≠ pixelHash p → t.cache.get j = s.cache.get j
  sampleR : Memory.read t.out s.outPos = some p.r
  sampleG : Memory.read t.out (s.outPos + 1) = some p.g
  sampleB : Memory.read t.out (s.outPos + 2) = some p.b
  sampleA : s.hdr.channels = 4 → Memory.read t.out (s.outPos + 3) = some p.a
  otherSamples : ∀ a, a < s.outPos ∨ s.outPos + spp s.hdr ≤ a → Memory.read t.out a = Memory.read s.out a
  phase : t.phase = if t.outPos = total s.hdr then .done else .pixels
  untouched : Untouched s t

/-- The pixels an instruction emits in a state, in order (R141). -/
def pixelsOf (i : Instr) (s : State) : List Pixel :=
  match i with
  | .header _ _ _ _ _ => []
  | .rgb r g b => [rgbPixel r g b s]
  | .rgba r g b a => [⟨r, g, b, a⟩]
  | .index idx => [indexPixel idx s]
  | .diff fr fg fb => [diffPixel fr fg fb s]
  | .luma fdg frg fbg => [lumaPixel fdg frg fbg s]
  | .run frun => List.replicate (runLength s.cfg.runBias frun) s.px

/-- The pixels the next step emits. -/
def stepPixels (s : State) : List Pixel :=
  match s.phase, fetchInstr .stream s with
  | .pixels, .ok i => pixelsOf i s
  | _, _ => []

/-- The state agrees with a list of emitted pixels, oldest first: PX is the last of them or the initial pixel (R20, R21), a
slot holds the most recent one of its hash or {0,0,0,0} (R240), and OUT holds the samples of all of them, in order (R58). -/
structure History (ps : List Pixel) (s : State) : Prop where
  px : s.px = ps.getLastD opaqueBlack
  slots : ∀ i, s.cache.get i = (ps.reverse.find? fun p => pixelHash p == i).getD zeroPixel
  outPos : s.outPos = ps.length * spp s.hdr
  samples : s.out.map Prod.snd = ps.flatMap (samples s.hdr)

/-- The states a decode of IN comes to without an error, each with all pixels emitted since reset, oldest first. -/
inductive Reached (cfg : Config) (input : List Byte) : List Pixel → State → Prop where
  | launch (n : Nat) : Reached cfg input [] (State.launch cfg input n)
  | step {ps : List Pixel} {s t : State} :
    Reached cfg input ps s → Machine.step s = .next t → t.phase ≠ .error → Reached cfg input (ps ++ stepPixels s) t

/-- The same state with other contents of IN. No step does this (R51); statements compare decodes by it. -/
def State.withInput (input : List Byte) (s : State) : State := { s with input := input }

/-- Two outcomes of the same kind, next states related by `R`, faults and refusals equal. -/
def OutcomesAgree (R : State → State → Prop) : Host.Outcome State Fault Refusal → Host.Outcome State Fault Refusal → Prop
  | .next s, .next t => R s t
  | .fault f, .fault g => f = g
  | .refused q, .refused r => q = r
  | _, _ => False

/-- Two states a host cannot tell apart now or later: equal but for what the spec says has no value in their phase
(R29, R197, R234). -/
structure SameDecode (s t : State) : Prop where
  cfg : t.cfg = s.cfg
  input : t.input = s.input
  hasBeenReset : t.hasBeenReset = s.hasBeenReset
  phase : t.phase = s.phase
  cause : t.cause = s.cause
  registers : s.phase ≠ .error →
    t.inPos = s.inPos ∧ t.outPos = s.outPos ∧ t.px = s.px ∧ t.cache = s.cache ∧ t.out = s.out
  header : headerReadable s.phase = true → t.hdr = s.hdr

/-- Two states equal but for pixel data: PX, CACHE, the contents of OUT, and the LUMA mask (R139). -/
structure SameBoundaries (s t : State) : Prop where
  runBias : t.cfg.runBias = s.cfg.runBias
  outCapacity : t.cfg.outCapacity = s.cfg.outCapacity
  input : t.input = s.input
  hasBeenReset : t.hasBeenReset = s.hasBeenReset
  phase : t.phase = s.phase
  cause : t.cause = s.cause
  hdr : t.hdr = s.hdr
  inPos : t.inPos = s.inPos
  outPos : t.outPos = s.outPos
  freeCount : t.freeCount = s.freeCount

end Sys2Proof.Machine
end

