-- ==== Sys2Proof/Certificates/Slice0/Obligations.lean ====
section
/-! DEFINITION. The statements for the provers. Each docstring names the rules of spec/ it rests on. -/

open Sys2Proof Sys2Proof.Machine

/-! Reset, the invariant, and which steps are enabled. -/

/-- R40, R230, R231 (their PHASE, CAUSE and the header registers without a value are the spec's decisions D4, D5, D14):
a reset in any state leaves the stated values, with no header register, cursor or sample readable by the host. -/
def Obligations.ResetLeavesTheStatedValues : Prop :=
  ∀ (s : State) (input : List Byte), ∀ t, t = s.applyReset input ∨ (t = State.reset ∧ input = []) →
    t.px = ⟨0, 0, 0, 255⟩ ∧ (∀ i, t.cache.get i = ⟨0, 0, 0, 0⟩) ∧ t.inPos = 0 ∧ t.outPos = 0 ∧
    t.phase = .header ∧ t.cause = .none ∧ t.input = input ∧ (∀ a, Memory.read t.out a = none) ∧
    (∀ reg, reg ≠ .phase → reg ≠ .cause → readPort reg t = none)

/-- R41, R42 at the state reset leaves. -/
def Obligations.InvariantHoldsAfterReset : Prop :=
  Inv State.reset ∧ ∀ (s : State) (input : List Byte), Inv (s.applyReset input)

/-- R41, R42: every step from a state that meets the invariant leads to one that meets it. The clause that OUT is in
canonical form is the model's (log entry 6). -/
def Obligations.StepKeepsInvariant : Prop :=
  ∀ s t : State, Inv s → step s = .next t → Inv t

/-- R33, R133, R201, R231: no step is enabled before the first reset, in DONE or in ERROR, and a reset enables the header
step again. That the model answers with a fault or a refusal is its choice (log entries 7, 8). -/
def Obligations.StepsEnabledByPhase : Prop :=
  ∀ s : State,
    (s.hasBeenReset = false → step s = .refused .notReset) ∧
    (s.hasBeenReset = true → s.phase = .done → step s = .fault .decodeDone) ∧
    (s.hasBeenReset = true → s.phase = .error → step s = .fault .decodeFailed) ∧
    (∀ input, (s.applyReset input).hasBeenReset = true ∧ (s.applyReset input).phase = .header)

/-- R39, R51, R28: no step changes IN, its length or a parameter, and no opcode step that raises nothing changes a header
register. -/
def Obligations.StepKeepsInputAndParameters : Prop :=
  ∀ s t : State, step s = .next t →
    t.input = s.input ∧ t.cfg = s.cfg ∧ t.hasBeenReset = true ∧
    (s.phase = .pixels → t.phase ≠ .error → t.hdr = s.hdr)

/-! Encoding. -/

/-- R81, R82: decoding the bytes of an instruction gives it back, whatever bytes follow, for every value of every field
an encoding admits (a RUN field is at most 61, R88). -/
def Obligations.DecodeOfEncodeIsInstr : Prop :=
  ∀ (i : Instr) (rest : List Byte), (∀ frun, i = .run frun → frun.toNat ≤ 61) →
    decode i.place (encode i ++ rest) = .ok (i, rest)

/-- R81, R82, R84: an instruction that is decoded is one of its place, with a RUN field of at most 61, and encodes to the
bytes it was decoded from. -/
def Obligations.EncodeOfDecodeIsBytes : Prop :=
  ∀ (place : Place) (bytes rest : List Byte) (i : Instr), decode place bytes = .ok (i, rest) →
    encode i ++ rest = bytes ∧ i.place = place ∧ (encode i).length = i.length ∧
    (∀ frun, i = .run frun → frun.toNat ≤ 61)

/-- R84: the complete map of the first byte, each row by its match and mask, its tag range and its length; every byte
selects exactly one opcode, with the counts the rule gives; and the HEADER is selected by position only. -/
def Obligations.FirstByteSelectsOneOpcode : Prop :=
  (∀ tag : Byte,
    (dispatch tag = .rgb ↔ tag = 0xFE) ∧ (dispatch tag = .rgba ↔ tag = 0xFF) ∧
    (dispatch tag = .index ↔ tag &&& 0xC0 = 0x00) ∧ (dispatch tag = .index ↔ tag.toNat ≤ 0x3F) ∧
    (dispatch tag = .diff ↔ tag &&& 0xC0 = 0x40) ∧ (dispatch tag = .diff ↔ 0x40 ≤ tag.toNat ∧ tag.toNat ≤ 0x7F) ∧
    (dispatch tag = .luma ↔ tag &&& 0xC0 = 0x80) ∧ (dispatch tag = .luma ↔ 0x80 ≤ tag.toNat ∧ tag.toNat ≤ 0xBF) ∧
    (dispatch tag = .run ↔ tag &&& 0xC0 = 0xC0 ∧ tag ≠ 0xFE ∧ tag ≠ 0xFF) ∧
    (dispatch tag = .run ↔ 0xC0 ≤ tag.toNat ∧ tag.toNat ≤ 0xFD)) ∧
  opcodeLength .rgb = 4 ∧ opcodeLength .rgba = 5 ∧ opcodeLength .index = 1 ∧ opcodeLength .diff = 1 ∧
  opcodeLength .luma = 2 ∧ opcodeLength .run = 1 ∧
  ((List.range 256).map fun n => dispatch (BitVec.ofNat 8 n)).count .rgb = 1 ∧
  ((List.range 256).map fun n => dispatch (BitVec.ofNat 8 n)).count .rgba = 1 ∧
  ((List.range 256).map fun n => dispatch (BitVec.ofNat 8 n)).count .index = 64 ∧
  ((List.range 256).map fun n => dispatch (BitVec.ofNat 8 n)).count .diff = 64 ∧
  ((List.range 256).map fun n => dispatch (BitVec.ofNat 8 n)).count .luma = 64 ∧
  ((List.range 256).map fun n => dispatch (BitVec.ofNat 8 n)).count .run = 62 ∧
  (∀ (bytes rest : List Byte) (i : Instr), decode .start bytes = .ok (i, rest) → ∃ m w h c cs, i = .header m w h c cs) ∧
  (∀ (bytes rest : List Byte) (m w h : BitVec 32) (c cs : Byte),
    decode .stream bytes ≠ .ok (.header m w h c cs, rest))

/-- R91: the length of an opcode depends on its first byte alone (0xFE gives 4, 0xFF gives 5, prefix 10 gives 2, all else
1), its operand bytes may have any value and are never tags, and the next tag is the byte after the last of them. -/
def Obligations.OpcodeLengthFromFirstByte : Prop :=
  ∀ (tag : Byte) (rest : List Byte),
    (opcodeLength (dispatch tag) =
      if tag = 0xFE then 4 else if tag = 0xFF then 5 else if tag.extractLsb' 6 2 = 2 then 2 else 1) ∧
    (opcodeLength (dispatch tag) ≤ rest.length + 1 →
      ∃ i, decodeOpcode (tag :: rest) = .ok (i, (tag :: rest).drop (opcodeLength (dispatch tag))) ∧
        i.length = opcodeLength (dispatch tag) ∧ i.place = .stream) ∧
    (rest.length + 1 < opcodeLength (dispatch tag) → decodeOpcode (tag :: rest) = .error .exhausted)

/-- R81, R82, R85 to R89: a word of each row, written out from the formats, decodes to the instruction it stands for. -/
def Obligations.WordsOfEachFormatDecode : Prop :=
  decode .start [0x71, 0x6F, 0x69, 0x66, 0x00, 0x00, 0x01, 0x02, 0x00, 0x01, 0x00, 0x00, 0x03, 0x01, 0xAB] =
    .ok (.header 0x716F6966 258 65536 3 1, [0xAB]) ∧
  decode .stream [0xFE, 0xFE, 0xFF, 0xC0, 0xA1] = .ok (.rgb 0xFE 0xFF 0xC0, [0xA1]) ∧
  decode .stream [0xFF, 0x0A, 0x14, 0x1E, 0xFE, 0x00] = .ok (.rgba 10 20 30 254, [0x00]) ∧
  decode .stream [0b00110101, 0x01] = .ok (.index 53, [0x01]) ∧
  decode .stream [0b01110010, 0x02] = .ok (.diff 3 0 2, [0x02]) ∧
  decode .stream [0b10011101, 0b10100000, 0x03] = .ok (.luma 29 10 0, [0x03]) ∧
  decode .stream [0b11111101, 0x04] = .ok (.run 61, [0x04])

/-! The step and its parts. -/

/-- R11, R110, R132: when the bytes at IN_POS decode to an instruction of the place that PHASE selects, the step is the
meaning of that instruction at that state, with nothing around it. -/
def Obligations.StepRunsTheDecodedInstruction : Prop :=
  ∀ (s : State) (i : Instr) (rest : List Byte), s.hasBeenReset = true →
    (s.phase = .header → decode .start (s.input.drop s.inPos) = .ok (i, rest) → step s = exec i s) ∧
    (s.phase = .pixels → decode .stream (s.input.drop s.inPos) = .ok (i, rest) → step s = exec i s)

/-- R110, R132, R135, R150, R151, R160, R170, R171, R180: the step does what the spec's pseudocode does, in which every
opcode fetches its own operand bytes one by one. What a header beyond OUT_CAPACITY does is R117's. -/
def Obligations.StepRefinesThePseudocode : Prop :=
  ∀ s : State, s.hasBeenReset = true →
    (s.phase = .pixels → step s = pseudoOutcome pOpcodeStep s) ∧
    (s.phase = .header → step s =
      match pHeaderStep s with
      | .ok (_, t) => if fitsCapacity t.cfg.outCapacity (total t.hdr) then .next t else .refused .exceedsOutCapacity
      | .error c => .next (s.raise c))

/-! HEADER. -/

/-- R110, R113, R116: a header with the right magic and a colorspace of 0 or 1, whole in IN and within OUT_CAPACITY,
completes: it stores its four fields whatever channels, width and height are, moves IN_POS by 14, goes to DONE exactly
when TOTAL is 0 and to PIXELS otherwise, and leaves everything else alone. -/
def Obligations.HeaderStoresItsFields : Prop :=
  ∀ (s : State) (width height : BitVec 32) (channels colorspace : Byte),
    s.phase = .header → Fetchable 14 s → colorspace = 0 ∨ colorspace = 1 →
    (∀ c, s.cfg.outCapacity = some c → width.toNat * height.toNat * channels.toNat ≤ c) →
    ∃ t, exec (.header 0x716F6966 width height channels colorspace) s = .next t ∧
      t.hdr = ⟨width, height, channels, colorspace⟩ ∧ t.inPos = s.inPos + 14 ∧
      t.phase = (if width.toNat * height.toNat * channels.toNat = 0 then .done else .pixels) ∧
      t.cause = s.cause ∧ t.outPos = s.outPos ∧ t.px = s.px ∧ t.cache = s.cache ∧ t.out = s.out ∧
      t.cfg = s.cfg ∧ t.input = s.input ∧ t.hasBeenReset = s.hasBeenReset ∧ t.freeCount = s.freeCount

/-- R56: the two multi-byte header fields are big-endian and unsigned: the byte at the lowest offset is the most
significant. The rule's example: 00 00 01 02 gives 258. -/
def Obligations.HeaderFieldsAreBigEndian : Prop :=
  (∀ (s : State) (w0 w1 w2 w3 h0 h1 h2 h3 c cs : Byte) (rest : List Byte),
    s.hasBeenReset = true → s.phase = .header → cs = 0 ∨ cs = 1 →
    fitsCapacity s.cfg.outCapacity (total ⟨be32 w0 w1 w2 w3, be32 h0 h1 h2 h3, c, cs⟩) = true → s.inPos = 0 → s.input = [0x71, 0x6F, 0x69, 0x66, w0, w1, w2, w3, h0, h1, h2, h3, c, cs] ++ rest →
    ∃ t, step s = .next t ∧
      t.hdr.width.toNat = w0.toNat * 2 ^ 24 + w1.toNat * 2 ^ 16 + w2.toNat * 2 ^ 8 + w3.toNat ∧
      t.hdr.height.toNat = h0.toNat * 2 ^ 24 + h1.toNat * 2 ^ 16 + h2.toNat * 2 ^ 8 + h3.toNat) ∧
  (be32 0x00 0x00 0x01 0x02).toNat = 258

/-- R111, R112, R114, R115 (their order is the spec's decision D6): which error the header step raises, by the bytes left
in IN: fewer than four, a wrong magic whatever follows, the right magic and fewer than fourteen, a colorspace of 2..255. -/
def Obligations.HeaderErrorsInOrder : Prop :=
  ∀ s : State, s.hasBeenReset = true → s.phase = .header →
    (s.remaining.length < 4 → step s = .next (s.raise .truncation)) ∧
    (4 ≤ s.remaining.length → s.remaining.take 4 ≠ [0x71, 0x6F, 0x69, 0x66] →
      step s = .next (s.raise .formatMagic)) ∧
    (s.remaining.take 4 = [0x71, 0x6F, 0x69, 0x66] → s.remaining.length < 14 →
      step s = .next (s.raise .truncation)) ∧
    (s.remaining.take 4 = [0x71, 0x6F, 0x69, 0x66] →
      ∀ colorspace, s.remaining[13]? = some colorspace → colorspace ≠ 0 → colorspace ≠ 1 →
        step s = .next (s.raise .formatColorspace))

/-- R116, R64 (the time of the loop test is decision D20): a header with TOTAL = 0 ends the decode with an empty OUT,
whatever follows it. -/
def Obligations.ZeroSizeImageIsDone : Prop :=
  ∀ (s : State) (width height : BitVec 32) (channels colorspace : Byte) (rest : List Byte),
    Inv s → s.hasBeenReset = true → s.phase = .header → colorspace = 0 ∨ colorspace = 1 →
    width = 0 ∨ height = 0 ∨ channels = 0 →
    s.input = encode (.header 0x716F6966 width height channels colorspace) ++ rest →
    ∃ t, step s = .next t ∧ t.phase = .done ∧ t.inPos = 14 ∧
      result t = .returned ⟨width, height, channels, colorspace⟩ []

/-- R117 (decision D8): a header whose TOTAL exceeds OUT_CAPACITY has no successor state. -/
def Obligations.HeaderBeyondCapacityIsRefused : Prop :=
  ∀ (s : State) (width height : BitVec 32) (channels colorspace : Byte) (c : Nat),
    s.phase = .header → Fetchable 14 s → colorspace = 0 ∨ colorspace = 1 →
    s.cfg.outCapacity = some c → c < width.toNat * height.toNat * channels.toNat →
    exec (.header 0x716F6966 width height channels colorspace) s = .refused .exceedsOutCapacity

/-! The opcodes: each completes, with exactly these effects. -/

/-- R150, R152: RGB emits its three operand bytes with the alpha of PX as it was before. -/
def Obligations.RgbInheritsAlpha : Prop :=
  ∀ (s : State) (r g b : Byte), s.phase = .pixels → Fetchable 4 s → HasRoom 1 s →
    ∃ t, exec (.rgb r g b) s = .next t ∧ EmitsOne 4 ⟨r, g, b, s.px.a⟩ s t

/-- R151, R153: RGBA emits its four operand bytes, whatever PX holds. -/
def Obligations.RgbaTakesItsOwnAlpha : Prop :=
  ∀ (s : State) (r g b a : Byte), s.phase = .pixels → Fetchable 5 s → HasRoom 1 s →
    ∃ t, exec (.rgba r g b a) s = .next t ∧ EmitsOne 5 ⟨r, g, b, a⟩ s t

/-- R160, R163, R242: INDEX emits the slot's pixel as it was before the step, verbatim. -/
def Obligations.IndexEmitsTheSlot : Prop :=
  ∀ (s : State) (idx : BitVec 6), s.phase = .pixels → Fetchable 1 s → HasRoom 1 s →
    ∃ t, exec (.index idx) s = .next t ∧ EmitsOne 1 (s.cache.get idx.toFin) s t

/-- R162: INDEX of a slot that holds the never-written zero pixel emits {0,0,0,0}, writes it to slot 0 and evicts what
stood there, and leaves the slot itself as it was. -/
def Obligations.IndexOfUnwrittenSlot : Prop :=
  ∀ (s : State) (idx : BitVec 6), s.phase = .pixels → Fetchable 1 s → HasRoom 1 s →
    s.cache.get idx.toFin = ⟨0, 0, 0, 0⟩ →
    ∃ t, exec (.index idx) s = .next t ∧ EmitsOne 1 ⟨0, 0, 0, 0⟩ s t ∧ t.px = ⟨0, 0, 0, 0⟩ ∧
      t.cache.get 0 = ⟨0, 0, 0, 0⟩ ∧ t.cache.get idx.toFin = ⟨0, 0, 0, 0⟩

/-- R163: under the cache invariant, INDEX of a slot that holds another pixel leaves the whole cache as it was, and PX
becomes that pixel, alpha included. -/
def Obligations.IndexOfWrittenSlotKeepsCache : Prop :=
  ∀ (s : State) (idx : BitVec 6), s.phase = .pixels → Fetchable 1 s → HasRoom 1 s → CacheInv s.cache →
    s.cache.get idx.toFin ≠ ⟨0, 0, 0, 0⟩ →
    ∃ t, exec (.index idx) s = .next t ∧ t.cache = s.cache ∧ t.px = s.cache.get idx.toFin

/-- R86, R170, R172, R174: DIFF moves each colour component of PX by its own field minus 2, modulo 256, alpha unchanged. -/
def Obligations.DiffMovesEachChannel : Prop :=
  ∀ (s : State) (fr fg fb : BitVec 2), s.phase = .pixels → Fetchable 1 s → HasRoom 1 s →
    ∃ t p, exec (.diff fr fg fb) s = .next t ∧ EmitsOne 1 p s t ∧
      (p.r.toNat : Int) = ((s.px.r.toNat : Int) + ((fr.toNat : Int) - 2)) % 256 ∧
      (p.g.toNat : Int) = ((s.px.g.toNat : Int) + ((fg.toNat : Int) - 2)) % 256 ∧
      (p.b.toNat : Int) = ((s.px.b.toNat : Int) + ((fb.toNat : Int) - 2)) % 256 ∧
      p.a = s.px.a

/-- R87, R171, R172, R175: LUMA moves green by dg, red and blue by dg plus their relative delta, modulo 256, alpha
unchanged, with dg = (fdg mod 64) - 32 under the mask 0x3F and (fdg mod 32) - 32 under 0x1F (D2). -/
def Obligations.LumaMovesByGreen : Prop :=
  ∀ (s : State) (fdg : BitVec 6) (frg fbg : BitVec 4), s.phase = .pixels → Fetchable 2 s → HasRoom 1 s →
    ∃ (t : State) (p : Pixel) (dg : Int), exec (.luma fdg frg fbg) s = .next t ∧ EmitsOne 2 p s t ∧
      (s.cfg.lumaDgMask = .sixBits → dg = (fdg.toNat : Int) - 32) ∧
      (s.cfg.lumaDgMask = .fiveBits → dg = ((fdg.toNat % 32 : Nat) : Int) - 32) ∧
      (p.r.toNat : Int) = ((s.px.r.toNat : Int) + dg + ((frg.toNat : Int) - 8)) % 256 ∧
      (p.g.toNat : Int) = ((s.px.g.toNat : Int) + dg) % 256 ∧
      (p.b.toNat : Int) = ((s.px.b.toNat : Int) + dg + ((fbg.toNat : Int) - 8)) % 256 ∧
      p.a = s.px.a

/-- R88, R180, R181, R183, R185: RUN emits frun + RUN_BIAS copies of PX when they all fit, and changes nothing else: every
copy in OUT, one cache slot if there is a copy, PX itself as it was. -/
def Obligations.RunRepeatsPreviousPixel : Prop :=
  ∀ (s : State) (frun : BitVec 6) (n : Nat),
    (s.cfg.runBias = .zero → n = frun.toNat) → (s.cfg.runBias = .one → n = frun.toNat + 1) →
    s.phase = .pixels → Fetchable 1 s → HasRoom n s →
    ∃ t, exec (.run frun) s = .next t ∧ t.inPos = s.inPos + 1 ∧ t.outPos = s.outPos + n * spp s.hdr ∧ t.px = s.px ∧
      (n = 0 → t.cache = s.cache) ∧ (0 < n → t.cache.get (pixelHash s.px) = s.px) ∧
      (∀ j, j ≠ pixelHash s.px → t.cache.get j = s.cache.get j) ∧
      (∀ k, k < n →
        Memory.read t.out (s.outPos + k * spp s.hdr) = some s.px.r ∧
        Memory.read t.out (s.outPos + k * spp s.hdr + 1) = some s.px.g ∧
        Memory.read t.out (s.outPos + k * spp s.hdr + 2) = some s.px.b ∧
        (s.hdr.channels = 4 → Memory.read t.out (s.outPos + k * spp s.hdr + 3) = some s.px.a)) ∧
      (∀ a, a < s.outPos ∨ s.outPos + n * spp s.hdr ≤ a → Memory.read t.out a = Memory.read s.out a) ∧
      t.phase = (if t.outPos = total s.hdr then .done else .pixels) ∧ Untouched s t

/-- R182: with RUN_BIAS = 0 the tag 0xC0 consumes its byte and changes nothing else, and with RUN_BIAS = 1 every RUN that
completes emits at least one pixel. -/
def Obligations.ZeroLengthRun : Prop :=
  ∀ s : State, s.phase = .pixels → Fetchable 1 s → s.outPos < total s.hdr →
    (s.cfg.runBias = .zero → exec (.run 0) s = .next { s with inPos := s.inPos + 1 }) ∧
    (s.cfg.runBias = .one → ∀ frun t, exec (.run frun) s = .next t → t.phase ≠ .error →
      s.outPos + spp s.hdr ≤ t.outPos)

/-- R184, R243: the state after n >= 1 repetitions is the state after one, except for OUT and OUT_POS. A RUN of at least one
pixel in a state whose PX is still the initial {0,0,0,255} writes that pixel into slot 53, where INDEX(53) then finds it. -/
def Obligations.RunRepetitionsAreIdempotent : Prop :=
  (∀ (n : Nat) (s t u : State), commitRun (n + 1) s = .ok t → commit s.px s = .ok u →
    t = { u with out := t.out, outPos := s.outPos + (n + 1) * spp s.hdr }) ∧
  (∀ (s : State) (frun : BitVec 6), s.phase = .pixels → s.px = ⟨0, 0, 0, 255⟩ → Fetchable 1 s →
    0 < runLength s.cfg.runBias frun → HasRoom (runLength s.cfg.runBias frun) s →
    ∃ t, exec (.run frun) s = .next t ∧ t.cache.get 53 = ⟨0, 0, 0, 255⟩ ∧ indexPixel 53 t = ⟨0, 0, 0, 255⟩)

/-! Errors. -/

/-- R54, R132, R150, R151, R171, R191, R198: an opcode whose bytes are not all in IN raises TruncationError before any
commit, and so does the step that finds no tag, or fewer bytes than the tag's opcode has. -/
def Obligations.TruncatedOpcodeRaises : Prop :=
  (∀ (i : Instr) (s : State), i.place = .stream → s.phase = .pixels → ¬ Fetchable i.length s →
    exec i s = .next (s.raise .truncation)) ∧
  (∀ s : State, s.hasBeenReset = true → s.phase = .pixels →
    (s.remaining = [] → step s = .next (s.raise .truncation)) ∧
    (∀ tag rest, s.remaining = tag :: rest → rest.length + 1 < opcodeLength (dispatch tag) →
      step s = .next (s.raise .truncation)))

/-- R138, R183, R198 (decision D11): an opcode whose bytes are all there but whose pixels do not all fit raises
OverrunError; a RUN is not cut short. -/
def Obligations.OverrunRaises : Prop :=
  ∀ (i : Instr) (s : State), i.place = .stream → s.phase = .pixels → Fetchable i.length s →
    s.outPos ≤ total s.hdr → ¬ HasRoom (pixelsOf i s).length s →
    exec i s = .next (s.raise .overrun)

/-- R138: with 3 or 4 channels, the invariant gives room for the first pixel of every opcode. -/
def Obligations.FirstPixelAlwaysFits : Prop :=
  ∀ s : State, Inv s → s.phase = .pixels → s.hdr.channels = 3 ∨ s.hdr.channels = 4 → HasRoom 1 s

/-- R191: which step can raise which error, for 3 or 4 channels. A header: truncation and the two format errors. A
decoded opcode: only a RUN, and only an overrun, exactly when it has more pixels than room. Bytes that are no whole
opcode: truncation, with no tag or the tag of RGB, RGBA or LUMA. -/
def Obligations.ErrorsEachStepCanRaise : Prop :=
  ∀ s t : State, Inv s → step s = .next t →
    (s.phase = .header → t.cause ≠ .overrun) ∧
    (s.phase = .pixels → s.hdr.channels = 3 ∨ s.hdr.channels = 4 →
      (∀ i, fetchInstr .stream s = .ok i →
        (t.cause ≠ .none ↔ ∃ frun, i = .run frun ∧ ¬ HasRoom (runLength s.cfg.runBias frun) s) ∧
        (t.cause ≠ .none → t.cause = .overrun)) ∧
      (∀ e, fetchInstr .stream s = .error e →
        t.cause = .truncation ∧
        ∀ tag rest, s.remaining = tag :: rest →
          dispatch tag = .rgb ∨ dispatch tag = .rgba ∨ dispatch tag = .luma))

/-- R190, R192, R197, R201, R210: a step that ends in ERROR has a cause, keeps IN and the parameters, leaves nothing but
PHASE and CAUSE readable, gives back the class of the cause only, and no further step is enabled. -/
def Obligations.ErrorEntryLeavesOnlyTheCause : Prop :=
  ∀ s t : State, step s = .next t → t.phase = .error →
    t.cause ≠ .none ∧ t.cfg = s.cfg ∧ t.input = s.input ∧
    readPort .phase t = some 3 ∧ readPort .cause t = some t.cause.code.toNat ∧
    (∀ reg, reg ≠ .phase → reg ≠ .cause → readPort reg t = none) ∧
    (∀ a, readOut a t = none ∧ Memory.read t.out a = none) ∧
    result t = .failed t.cause.errorClass ∧ t.cause.errorClass ≠ none ∧
    step t = .fault .decodeFailed

/-! Values. -/

/-- R136: hash(p) = (3r + 5g + 7b + 11a) mod 64, exact, with a sum of at most 6630; every emitted pixel stands in the slot
its hash selects. -/
def Obligations.HashOfAPixel : Prop :=
  (∀ p : Pixel, (pixelHash p).val = (p.r.toNat * 3 + p.g.toNat * 5 + p.b.toNat * 7 + p.a.toNat * 11) % 64 ∧
    p.r.toNat * 3 + p.g.toNat * 5 + p.b.toNat * 7 + p.a.toNat * 11 ≤ 6630) ∧
  (∀ (p : Pixel) (s t : State), commit p s = .ok t → t.cache.get (pixelHash p) = p)

/-- R137: computing the products and the sum in wrapping arithmetic of any width of 6 bits or more and taking the low 6
bits gives the same hash; and the values the rule lists. -/
def Obligations.HashIsWidthInsensitive : Prop :=
  (∀ (w : Nat) (p : Pixel), 6 ≤ w →
    ((p.r.setWidth w * BitVec.ofNat w 3 + p.g.setWidth w * BitVec.ofNat w 5 + p.b.setWidth w * BitVec.ofNat w 7 +
      p.a.setWidth w * BitVec.ofNat w 11).extractLsb' 0 6).toNat = (pixelHash p).val) ∧
  pixelHash ⟨0, 0, 0, 0⟩ = 0 ∧ pixelHash ⟨0, 0, 0, 255⟩ = 53 ∧ pixelHash ⟨10, 20, 30, 255⟩ = 9 ∧
  pixelHash ⟨10, 20, 30, 254⟩ = 62 ∧ pixelHash ⟨255, 255, 255, 255⟩ = 38 ∧ pixelHash ⟨1, 0, 0, 0⟩ = 3 ∧
  pixelHash ⟨65, 0, 0, 0⟩ = 3 ∧ pixelHash ⟨64, 0, 0, 0⟩ = 0

/-- R172: (c + d) mod 256 in both directions; several deltas may be summed first or reduced one by one; an 8-bit
two's-complement adder computes the same; the rule's example 0 - 2 = 254. Nothing is raised: the sum is a byte for every
delta. -/
def Obligations.ComponentArithmeticWraps : Prop :=
  (∀ (c : Byte) (d : Int), ((addDelta c d).toNat : Int) = ((c.toNat : Int) + d) % 256) ∧
  (∀ (c : Byte) (d e : Int), addDelta c (d + e) = addDelta (addDelta c d) e) ∧
  (∀ (c : Byte) (d : Int), addDelta c d = c + BitVec.ofInt 8 d) ∧
  addDelta 0 (-2) = 254 ∧ addDelta 255 1 = 0

/-- R58: the pixel emitted k-th since OUT was empty occupies OUT[k*SPP] and up: r, g, b, and a when there are 4 channels.
The emissions are the commits of R135. -/
def Obligations.SampleOrderOfPixels : Prop :=
  ∀ (s : State) (ps : List Pixel) (k : Nat) (p : Pixel), s.outPos = 0 → ps[k]? = some p →
    ∀ t, t = ps.foldl (fun u q => u.emit q) s →
      Memory.read t.out (k * spp s.hdr) = some p.r ∧ Memory.read t.out (k * spp s.hdr + 1) = some p.g ∧
      Memory.read t.out (k * spp s.hdr + 2) = some p.b ∧
      (s.hdr.channels = 4 → Memory.read t.out (k * spp s.hdr + 3) = some p.a)

/-! The host's side and the decode as a whole. -/

/-- R207 (decisions D13, D14): what the status port and OUT show in each phase. -/
def Obligations.StatusPortByPhase : Prop :=
  ∀ s : State, s.hasBeenReset = true →
    readPort .phase s = some s.phase.code.toNat ∧ readPort .cause s = some s.cause.code.toNat ∧
    (s.phase = .pixels ∨ s.phase = .done →
      readPort .width s = some s.hdr.width.toNat ∧ readPort .height s = some s.hdr.height.toNat ∧
      readPort .channels s = some s.hdr.channels.toNat ∧ readPort .colorspace s = some s.hdr.colorspace.toNat) ∧
    (s.phase = .header ∨ s.phase = .error →
      readPort .width s = none ∧ readPort .height s = none ∧ readPort .channels s = none ∧
      readPort .colorspace s = none) ∧
    (s.phase = .done → readPort .outPos s = some s.outPos ∧ readPort .inPos s = some s.inPos ∧
      ∀ a, a < total s.hdr → readOut a s = Memory.read s.out a) ∧
    (s.phase ≠ .done → readPort .outPos s = none ∧ readPort .inPos s = none ∧ ∀ a, readOut a s = none)

/-- R133, R209, R212: at DONE the host gets the header and exactly width x height x channels samples, each one written.
On a state that was never reset this is the model's choice (log entry 27). -/
def Obligations.DoneReturnsTotalSamples : Prop :=
  ∀ s : State, Inv s → s.phase = .done →
    ∃ out : List Byte, result s = .returned s.hdr out ∧
      out.length = s.hdr.width.toNat * s.hdr.height.toNat * s.hdr.channels.toNat ∧
      s.outPos = out.length ∧ ∀ a, a < out.length → out[a]? = Memory.read s.out a

/-- R21, R58, R161, R240, R241: after any steps since reset that raised nothing, PX is the last emitted pixel, a cache slot
and so an INDEX gives the most recently emitted pixel of that hash or {0,0,0,0}, and OUT is the samples of all emitted
pixels in order. -/
def Obligations.HistoryDeterminesTheState : Prop :=
  ∀ (cfg : Config) (input : List Byte) (ps : List Pixel) (s : State), Reached cfg input ps s →
    s.px = ps.getLastD ⟨0, 0, 0, 255⟩ ∧
    (∀ i, s.cache.get i = (ps.reverse.find? fun p => pixelHash p == i).getD ⟨0, 0, 0, 0⟩) ∧
    (∀ idx : BitVec 6,
      indexPixel idx s = (ps.reverse.find? fun p => (pixelHash p).val == idx.toNat).getD ⟨0, 0, 0, 0⟩) ∧
    s.outPos = ps.length * spp s.hdr ∧ s.out.map Prod.snd = ps.flatMap (samples s.hdr)

/-- R142: under the invariant every step that raises nothing advances IN_POS, never past IN_LEN, and with RUN_BIAS = 1
every such opcode step advances OUT_POS by at least SPP. -/
def Obligations.StepMakesProgress : Prop :=
  ∀ s t : State, Inv s → step s = .next t → t.phase ≠ .error →
    s.inPos < t.inPos ∧ t.inPos ≤ t.input.length ∧
    (s.phase = .pixels → s.cfg.runBias = .one → s.outPos + spp s.hdr ≤ t.outPos)

/-- R130, R142: a decode of any IN reaches DONE or ERROR in at most IN_LEN + 2 steps, unless its header exceeds a finite
OUT_CAPACITY (R117). That the byte source always answers is assumed (log entry 13). -/
def Obligations.DecodeTerminates : Prop :=
  ∀ (s : State) (input : List Byte),
    (∃ t, runToEnd (input.length + 2) (s.applyReset input) = .next t ∧ (t.phase = .done ∨ t.phase = .error)) ∨
    (runToEnd (input.length + 2) (s.applyReset input) = .refused .exceedsOutCapacity ∧ s.cfg.outCapacity ≠ none)

/-- R64, R133: a step that raises nothing has read no byte at or beyond the IN_POS it leaves: with any other IN that
agrees below it, the step is the same. -/
def Obligations.TrailingBytesAreNotRead : Prop :=
  ∀ (s t : State) (input : List Byte), step s = .next t → t.phase ≠ .error →
    input.take t.inPos = s.input.take t.inPos →
    step (s.withInput input) = .next (t.withInput input)

/-- R139, R245: where the opcodes of a stream begin and when the decode ends does not depend on PX, CACHE, the contents
of OUT or the LUMA mask. -/
def Obligations.BoundariesIgnorePixelData : Prop :=
  ∀ s t : State, SameBoundaries s t → OutcomesAgree SameBoundaries (step s) (step t)

/-- R29, R197, R234: what the spec says has no value never reaches anything that has: a step keeps two states alike that
differ only there, and the host sees the same of both. What is said of `result` on states that were never reset is the
model's choice (log entry 27). -/
def Obligations.UnspecifiedValuesNeverSurface : Prop :=
  ∀ s t : State, SameDecode s t →
    OutcomesAgree SameDecode (step s) (step t) ∧ result s = result t ∧
    (∀ reg, readPort reg s = readPort reg t) ∧ ∀ a, readOut a s = readOut a t

/-- R234: the result of a decode depends only on IN and the parameters, not on what the block held before its reset. -/
def Obligations.DecodesAreIndependent : Prop :=
  ∀ (s t : State) (input : List Byte), s.cfg = t.cfg → decodeStream input s = decodeStream input t

/-- R21, R25, R58, R135, R240, R241, as an invariant of the step: from any state that meets the invariant and agrees with a
list of emitted pixels, a step that raises nothing leads to a state that agrees with that list and the pixels it emitted. -/
def Obligations.StepKeepsHistory : Prop :=
  ∀ (ps : List Pixel) (s t : State), Inv s → History ps s → step s = .next t → t.phase ≠ .error →
    History (ps ++ stepPixels s) t
end

