-- ==== Sys2Proof/Laws/State.lean ====
section
/-! SUPPORT. One lemma per field per named update of the state, true by rfl, so that no proof unfolds a record update. -/

namespace Sys2Proof.Machine

@[simp] theorem State.advanceIn_cfg (n : Nat) (s : State) : (s.advanceIn n).cfg = s.cfg := rfl
@[simp] theorem State.advanceIn_input (n : Nat) (s : State) : (s.advanceIn n).input = s.input := rfl
@[simp] theorem State.advanceIn_hasBeenReset (n : Nat) (s : State) : (s.advanceIn n).hasBeenReset = s.hasBeenReset := rfl
@[simp] theorem State.advanceIn_phase (n : Nat) (s : State) : (s.advanceIn n).phase = s.phase := rfl
@[simp] theorem State.advanceIn_cause (n : Nat) (s : State) : (s.advanceIn n).cause = s.cause := rfl
@[simp] theorem State.advanceIn_hdr (n : Nat) (s : State) : (s.advanceIn n).hdr = s.hdr := rfl
@[simp] theorem State.advanceIn_inPos (n : Nat) (s : State) : (s.advanceIn n).inPos = s.inPos + n := rfl
@[simp] theorem State.advanceIn_outPos (n : Nat) (s : State) : (s.advanceIn n).outPos = s.outPos := rfl
@[simp] theorem State.advanceIn_px (n : Nat) (s : State) : (s.advanceIn n).px = s.px := rfl
@[simp] theorem State.advanceIn_cache (n : Nat) (s : State) : (s.advanceIn n).cache = s.cache := rfl
@[simp] theorem State.advanceIn_out (n : Nat) (s : State) : (s.advanceIn n).out = s.out := rfl
@[simp] theorem State.advanceIn_freeCount (n : Nat) (s : State) : (s.advanceIn n).freeCount = s.freeCount := rfl

@[simp] theorem State.emit_cfg (p : Pixel) (s : State) : (s.emit p).cfg = s.cfg := rfl
@[simp] theorem State.emit_input (p : Pixel) (s : State) : (s.emit p).input = s.input := rfl
@[simp] theorem State.emit_hasBeenReset (p : Pixel) (s : State) : (s.emit p).hasBeenReset = s.hasBeenReset := rfl
@[simp] theorem State.emit_phase (p : Pixel) (s : State) : (s.emit p).phase = s.phase := rfl
@[simp] theorem State.emit_cause (p : Pixel) (s : State) : (s.emit p).cause = s.cause := rfl
@[simp] theorem State.emit_hdr (p : Pixel) (s : State) : (s.emit p).hdr = s.hdr := rfl
@[simp] theorem State.emit_inPos (p : Pixel) (s : State) : (s.emit p).inPos = s.inPos := rfl
@[simp] theorem State.emit_outPos (p : Pixel) (s : State) : (s.emit p).outPos = s.outPos + spp s.hdr := rfl
@[simp] theorem State.emit_px (p : Pixel) (s : State) : (s.emit p).px = p := rfl
@[simp] theorem State.emit_cache (p : Pixel) (s : State) : (s.emit p).cache = s.cache.set (pixelHash p).val p := rfl
@[simp] theorem State.emit_out (p : Pixel) (s : State) : (s.emit p).out = Memory.writeList s.out s.outPos (samples s.hdr p) := rfl
@[simp] theorem State.emit_freeCount (p : Pixel) (s : State) : (s.emit p).freeCount = s.freeCount := rfl

@[simp] theorem State.setHeader_cfg (h : Header) (s : State) : (s.setHeader h).cfg = s.cfg := rfl
@[simp] theorem State.setHeader_input (h : Header) (s : State) : (s.setHeader h).input = s.input := rfl
@[simp] theorem State.setHeader_hasBeenReset (h : Header) (s : State) : (s.setHeader h).hasBeenReset = s.hasBeenReset := rfl
@[simp] theorem State.setHeader_phase (h : Header) (s : State) : (s.setHeader h).phase = s.phase := rfl
@[simp] theorem State.setHeader_cause (h : Header) (s : State) : (s.setHeader h).cause = s.cause := rfl
@[simp] theorem State.setHeader_hdr (h : Header) (s : State) : (s.setHeader h).hdr = h := rfl
@[simp] theorem State.setHeader_inPos (h : Header) (s : State) : (s.setHeader h).inPos = s.inPos := rfl
@[simp] theorem State.setHeader_outPos (h : Header) (s : State) : (s.setHeader h).outPos = s.outPos := rfl
@[simp] theorem State.setHeader_px (h : Header) (s : State) : (s.setHeader h).px = s.px := rfl
@[simp] theorem State.setHeader_cache (h : Header) (s : State) : (s.setHeader h).cache = s.cache := rfl
@[simp] theorem State.setHeader_out (h : Header) (s : State) : (s.setHeader h).out = s.out := rfl
@[simp] theorem State.setHeader_freeCount (h : Header) (s : State) : (s.setHeader h).freeCount = s.freeCount := rfl

@[simp] theorem State.endHeader_cfg (s : State) : (s.endHeader).cfg = s.cfg := rfl
@[simp] theorem State.endHeader_input (s : State) : (s.endHeader).input = s.input := rfl
@[simp] theorem State.endHeader_hasBeenReset (s : State) : (s.endHeader).hasBeenReset = s.hasBeenReset := rfl
@[simp] theorem State.endHeader_phase (s : State) : (s.endHeader).phase = phaseAfterHeader (total s.hdr) := rfl
@[simp] theorem State.endHeader_cause (s : State) : (s.endHeader).cause = s.cause := rfl
@[simp] theorem State.endHeader_hdr (s : State) : (s.endHeader).hdr = s.hdr := rfl
@[simp] theorem State.endHeader_inPos (s : State) : (s.endHeader).inPos = s.inPos := rfl
@[simp] theorem State.endHeader_outPos (s : State) : (s.endHeader).outPos = s.outPos := rfl
@[simp] theorem State.endHeader_px (s : State) : (s.endHeader).px = s.px := rfl
@[simp] theorem State.endHeader_cache (s : State) : (s.endHeader).cache = s.cache := rfl
@[simp] theorem State.endHeader_out (s : State) : (s.endHeader).out = s.out := rfl
@[simp] theorem State.endHeader_freeCount (s : State) : (s.endHeader).freeCount = s.freeCount := rfl

@[simp] theorem State.endOpcode_cfg (s : State) : (s.endOpcode).cfg = s.cfg := rfl
@[simp] theorem State.endOpcode_input (s : State) : (s.endOpcode).input = s.input := rfl
@[simp] theorem State.endOpcode_hasBeenReset (s : State) : (s.endOpcode).hasBeenReset = s.hasBeenReset := rfl
@[simp] theorem State.endOpcode_phase (s : State) : (s.endOpcode).phase = phaseAfterOpcode s.outPos (total s.hdr) s.phase := rfl
@[simp] theorem State.endOpcode_cause (s : State) : (s.endOpcode).cause = s.cause := rfl
@[simp] theorem State.endOpcode_hdr (s : State) : (s.endOpcode).hdr = s.hdr := rfl
@[simp] theorem State.endOpcode_inPos (s : State) : (s.endOpcode).inPos = s.inPos := rfl
@[simp] theorem State.endOpcode_outPos (s : State) : (s.endOpcode).outPos = s.outPos := rfl
@[simp] theorem State.endOpcode_px (s : State) : (s.endOpcode).px = s.px := rfl
@[simp] theorem State.endOpcode_cache (s : State) : (s.endOpcode).cache = s.cache := rfl
@[simp] theorem State.endOpcode_out (s : State) : (s.endOpcode).out = s.out := rfl
@[simp] theorem State.endOpcode_freeCount (s : State) : (s.endOpcode).freeCount = s.freeCount := rfl

@[simp] theorem State.withInput_cfg (input : List Byte) (s : State) : (s.withInput input).cfg = s.cfg := rfl
@[simp] theorem State.withInput_input (input : List Byte) (s : State) : (s.withInput input).input = input := rfl
@[simp] theorem State.withInput_hasBeenReset (input : List Byte) (s : State) : (s.withInput input).hasBeenReset = s.hasBeenReset := rfl
@[simp] theorem State.withInput_phase (input : List Byte) (s : State) : (s.withInput input).phase = s.phase := rfl
@[simp] theorem State.withInput_cause (input : List Byte) (s : State) : (s.withInput input).cause = s.cause := rfl
@[simp] theorem State.withInput_hdr (input : List Byte) (s : State) : (s.withInput input).hdr = s.hdr := rfl
@[simp] theorem State.withInput_inPos (input : List Byte) (s : State) : (s.withInput input).inPos = s.inPos := rfl
@[simp] theorem State.withInput_outPos (input : List Byte) (s : State) : (s.withInput input).outPos = s.outPos := rfl
@[simp] theorem State.withInput_px (input : List Byte) (s : State) : (s.withInput input).px = s.px := rfl
@[simp] theorem State.withInput_cache (input : List Byte) (s : State) : (s.withInput input).cache = s.cache := rfl
@[simp] theorem State.withInput_out (input : List Byte) (s : State) : (s.withInput input).out = s.out := rfl
@[simp] theorem State.withInput_freeCount (input : List Byte) (s : State) : (s.withInput input).freeCount = s.freeCount := rfl

@[simp] theorem State.raise_cfg (c : Cause) (s : State) : (s.raise c).cfg = s.cfg := rfl
@[simp] theorem State.raise_input (c : Cause) (s : State) : (s.raise c).input = s.input := rfl
@[simp] theorem State.raise_hasBeenReset (c : Cause) (s : State) : (s.raise c).hasBeenReset = s.hasBeenReset := rfl
@[simp] theorem State.raise_phase (c : Cause) (s : State) : (s.raise c).phase = .error := rfl
@[simp] theorem State.raise_cause (c : Cause) (s : State) : (s.raise c).cause = c := rfl
@[simp] theorem State.raise_hdr (c : Cause) (s : State) : (s.raise c).hdr = Config.freeHeader s.freeCount := rfl
@[simp] theorem State.raise_inPos (c : Cause) (s : State) : (s.raise c).inPos = Config.freeInPos s.freeCount := rfl
@[simp] theorem State.raise_outPos (c : Cause) (s : State) : (s.raise c).outPos = (Config.freeOutPos s.freeCount).toNat := rfl
@[simp] theorem State.raise_px (c : Cause) (s : State) : (s.raise c).px = Config.freePixel s.freeCount := rfl
@[simp] theorem State.raise_cache (c : Cause) (s : State) : (s.raise c).cache = Config.freeCache s.freeCount := rfl
@[simp] theorem State.raise_out (c : Cause) (s : State) : (s.raise c).out = [] := rfl
@[simp] theorem State.raise_freeCount (c : Cause) (s : State) : (s.raise c).freeCount = s.freeCount + 1 := rfl

@[simp] theorem State.launch_cfg (cfg : Config) (input : List Byte) (n : Nat) :
    (State.launch cfg input n).cfg = cfg := rfl
@[simp] theorem State.launch_input (cfg : Config) (input : List Byte) (n : Nat) :
    (State.launch cfg input n).input = input := rfl
@[simp] theorem State.launch_hasBeenReset (cfg : Config) (input : List Byte) (n : Nat) :
    (State.launch cfg input n).hasBeenReset = true := rfl
@[simp] theorem State.launch_phase (cfg : Config) (input : List Byte) (n : Nat) :
    (State.launch cfg input n).phase = .header := rfl
@[simp] theorem State.launch_cause (cfg : Config) (input : List Byte) (n : Nat) :
    (State.launch cfg input n).cause = .none := rfl
@[simp] theorem State.launch_hdr (cfg : Config) (input : List Byte) (n : Nat) :
    (State.launch cfg input n).hdr = Config.freeHeader n := rfl
@[simp] theorem State.launch_inPos (cfg : Config) (input : List Byte) (n : Nat) :
    (State.launch cfg input n).inPos = 0 := rfl
@[simp] theorem State.launch_outPos (cfg : Config) (input : List Byte) (n : Nat) :
    (State.launch cfg input n).outPos = 0 := rfl
@[simp] theorem State.launch_px (cfg : Config) (input : List Byte) (n : Nat) :
    (State.launch cfg input n).px = opaqueBlack := rfl
@[simp] theorem State.launch_cache (cfg : Config) (input : List Byte) (n : Nat) :
    (State.launch cfg input n).cache = Vector.replicate 64 zeroPixel := rfl
@[simp] theorem State.launch_out (cfg : Config) (input : List Byte) (n : Nat) :
    (State.launch cfg input n).out = [] := rfl
@[simp] theorem State.launch_freeCount (cfg : Config) (input : List Byte) (n : Nat) :
    (State.launch cfg input n).freeCount = n + 1 := rfl

/-- A reset is a launch with the block's own parameters (R230). -/
theorem State.applyReset_eq (input : List Byte) (s : State) :
    s.applyReset input = State.launch s.cfg input s.freeCount := rfl

end Sys2Proof.Machine
end

