-- ==== Sys2Proof/Laws/Ops.lean ====
section
/-! SUPPORT. What each shared operation does, said once: OUT as a memory, fetching, the commit, and the two ways an
opcode step can go. -/

namespace Sys2Proof.Machine

/-! PHASE at the end of a step. -/

/-- Everything PHASE can become at the end of a header step (R110, R116). -/
theorem phaseAfterHeader_cases (n : Nat) :
    n = 0 ∧ phaseAfterHeader n = .done ∨ n ≠ 0 ∧ phaseAfterHeader n = .pixels := by
  unfold phaseAfterHeader
  by_cases h : n = 0 <;> simp [h]

/-- Everything PHASE can become at the end of an opcode step (R131, R132). -/
theorem phaseAfterOpcode_cases (outPos n : Nat) (phase : Phase) :
    outPos = n ∧ phaseAfterOpcode outPos n phase = .done ∨ outPos ≠ n ∧ phaseAfterOpcode outPos n phase = phase := by
  unfold phaseAfterOpcode
  by_cases h : outPos = n <;> simp [h]

/-! The output space. -/

theorem Memory.wf_tail {c : Host.Cell} {m : Memory} (h : Memory.wf (c :: m) = true) : Memory.wf m = true := by
  cases m with
  | nil => rfl
  | cons d rest => simp [Memory.wf] at h; exact h.2

/-- Every index in the tail of a canonical memory lies above its head. -/
theorem Memory.wf_head_lt {c : Host.Cell} {m : Memory} (h : Memory.wf (c :: m) = true) : ∀ d ∈ m, c.1 < d.1 := by
  induction m generalizing c with
  | nil => simp
  | cons d rest ih =>
    simp [Memory.wf] at h
    intro e he
    rcases List.mem_cons.mp he with rfl | he
    · exact h.1
    · exact lt_trans h.1 (ih h.2 e he)

theorem Memory.wf_cons {c : Host.Cell} {m : Memory} (h : Memory.wf m = true) (hc : ∀ d ∈ m, c.1 < d.1) :
    Memory.wf (c :: m) = true := by
  cases m with
  | nil => rfl
  | cons d rest => simp [Memory.wf, h, hc d (by simp)]

theorem Memory.mem_write {m : Memory} {a : Nat} {v : Byte} :
    ∀ d ∈ Memory.write m a v, d = (a, v) ∨ d ∈ m := by
  induction m with
  | nil => simp [Memory.write]
  | cons c rest ih =>
    intro d hd
    simp only [Memory.write] at hd
    split at hd
    · simpa using hd
    · split at hd
      · rcases List.mem_cons.mp hd with h | h
        · exact .inl h
        · exact .inr (List.mem_cons_of_mem _ h)
      · rcases List.mem_cons.mp hd with h | h
        · exact .inr (by simp [h])
        · exact (ih d h).imp id (List.mem_cons_of_mem _)

/-- MemWrite keeps the canonical form. -/
theorem Memory.wf_write {m : Memory} (h : Memory.wf m = true) (a : Nat) (v : Byte) :
    Memory.wf (Memory.write m a v) = true := by
  induction m with
  | nil => rfl
  | cons c rest ih =>
    have hl := Memory.wf_head_lt h
    simp only [Memory.write]
    split
    · rename_i hlt
      refine Memory.wf_cons h fun d hd => ?_
      rcases List.mem_cons.mp hd with rfl | hd
      · exact hlt
      · exact lt_trans hlt (hl d hd)
    · split
      · rename_i heq
        exact Memory.wf_cons (Memory.wf_tail h) fun d hd => by simpa [heq] using hl d hd
      · refine Memory.wf_cons (ih (Memory.wf_tail h)) fun d hd => ?_
        rcases Memory.mem_write d hd with rfl | hd
        · simp only; omega
        · exact hl d hd

/-- Writing consecutive samples keeps the canonical form. -/
theorem Memory.wf_writeList {m : Memory} (h : Memory.wf m = true) (a : Nat) (vs : List Byte) :
    Memory.wf (Memory.writeList m a vs) = true := by
  induction vs generalizing m a with
  | nil => exact h
  | cons v vs ih => exact ih (Memory.wf_write h a v) (a + 1)

/-- A launch, so also a reset and State.reset, leaves OUT in canonical form. -/
theorem State.launch_out_wf (cfg : Config) (input : List Byte) (n : Nat) :
    Memory.wf (State.launch cfg input n).out = true := rfl

/-- Entering ERROR leaves OUT in canonical form. -/
theorem State.raise_out_wf (c : Cause) (s : State) : Memory.wf (s.raise c).out = true := rfl

/-- A commit's writes keep OUT in canonical form. -/
theorem State.emit_out_wf (p : Pixel) {s : State} (h : Memory.wf s.out = true) : Memory.wf (s.emit p).out = true :=
  Memory.wf_writeList h _ _

/-- A read after a write: the sample written there, and every other sample as before. Holds of any memory. -/
theorem Memory.read_write (m : Memory) (a : Nat) (v : Byte) (b : Nat) :
    Memory.read (Memory.write m a v) b = if b = a then some v else Memory.read m b := by
  induction m with
  | nil => simp [Memory.write, Memory.read]
  | cons c rest ih =>
    simp only [Memory.write]
    split
    · simp [Memory.read]
    · split
      · rename_i heq
        subst heq
        simp only [Memory.read]
        split <;> simp_all
      · simp only [Memory.read, ih]
        split
        · rename_i h1 h2 h3
          rw [if_neg (by omega)]
        · rfl

/-- A read after consecutive writes: the k-th sample written, and every sample outside them as before. -/
theorem Memory.read_writeList (m : Memory) (a : Nat) (vs : List Byte) (b : Nat) :
    Memory.read (Memory.writeList m a vs) b =
      if a ≤ b ∧ b < a + vs.length then vs[b - a]? else Memory.read m b := by
  induction vs generalizing m a with
  | nil => simp [Memory.writeList]
  | cons v vs ih =>
    simp only [Memory.writeList, ih, Memory.read_write, List.length_cons]
    by_cases hb : b = a
    · subst hb
      simp
    · by_cases h : a + 1 ≤ b ∧ b < a + 1 + vs.length
      · rw [if_pos h, if_pos (by omega), show b - a = (b - (a + 1)) + 1 by omega, List.getElem?_cons_succ]
      · rw [if_neg h, if_neg hb, if_neg (by omega)]

/-- Writing above every listed index appends. -/
theorem Memory.write_append {m : Memory} {a : Nat} (h : ∀ d ∈ m, d.1 < a) (v : Byte) :
    Memory.write m a v = m ++ [(a, v)] := by
  induction m with
  | nil => rfl
  | cons c rest ih =>
    have hc := h c (by simp)
    simp only [Memory.write, List.cons_append]
    rw [if_neg (by omega), if_neg (by omega), ih fun d hd => h d (List.mem_cons_of_mem _ hd)]

/-- When exactly the samples below `a` are written, writing from `a` upward appends (R66). -/
theorem Memory.writeList_append {m : Memory} {a : Nat} (h : m.map Prod.fst = List.range a) (vs : List Byte) :
    (Memory.writeList m a vs).map Prod.fst = List.range (a + vs.length) ∧
      (Memory.writeList m a vs).map Prod.snd = m.map Prod.snd ++ vs := by
  induction vs generalizing m a with
  | nil => simpa [Memory.writeList] using h
  | cons v vs ih =>
    have hlt : ∀ d ∈ m, d.1 < a := fun d hd => by
      have : d.1 ∈ m.map Prod.fst := List.mem_map_of_mem hd
      simpa [h] using this
    have hm : (Memory.write m a v).map Prod.fst = List.range (a + 1) := by
      simp [Memory.write_append hlt, h, List.range_succ]
    obtain ⟨h1, h2⟩ := ih hm
    refine ⟨by simpa [Memory.writeList, Nat.add_assoc, Nat.add_comm 1] using h1, ?_⟩
    rw [Memory.writeList, h2, Memory.write_append hlt]
    simp

/-- When exactly the samples below `n` are written, those are the ones that have a value. -/
theorem Memory.read_isSome {m : Memory} {n : Nat} (h : m.map Prod.fst = List.range n) (a : Nat) :
    (Memory.read m a).isSome = true ↔ a < n := by
  have key : ∀ m : Memory, (Memory.read m a).isSome = true ↔ a ∈ m.map Prod.fst := by
    intro m
    induction m with
    | nil => simp [Memory.read]
    | cons c rest ih =>
      simp only [Memory.read, List.map_cons, List.mem_cons]
      split
      · simp [*]
      · rw [ih]; simp_all
  rw [key, h, List.mem_range]

/-! The samples of a pixel. -/

@[simp] theorem samples_length (h : Header) (p : Pixel) : (samples h p).length = spp h := by
  unfold samples spp; split <;> rfl

theorem spp_pos (h : Header) : 0 < spp h := by unfold spp; split <;> decide

theorem spp_le_four (h : Header) : 3 ≤ spp h ∧ spp h ≤ 4 := by unfold spp; split <;> decide

/-- With 3 or 4 channels OUT is a whole number of pixels (R138). -/
theorem spp_dvd_total {h : Header} (hc : h.channels = 3 ∨ h.channels = 4) : spp h ∣ total h := by
  rcases hc with hc | hc <;> simp [spp, total, hc]

/-- TOTAL stays below 2^72 (R30). -/
theorem total_lt (h : Header) : total h < 2 ^ 72 := by
  have h1 : h.width.toNat * h.height.toNat ≤ (2 ^ 32 - 1) * (2 ^ 32 - 1) :=
    Nat.mul_le_mul (by have := h.width.isLt; omega) (by have := h.height.isLt; omega)
  have h2 : total h ≤ (2 ^ 32 - 1) * (2 ^ 32 - 1) * 255 :=
    Nat.mul_le_mul h1 (by have := h.channels.isLt; omega)
  exact lt_of_le_of_lt h2 (by norm_num)

/-- What the samples of one pixel read as (R58). -/
theorem read_samples (m : Memory) (h : Header) (p : Pixel) (a : Nat) :
    Memory.read (Memory.writeList m a (samples h p)) a = some p.r ∧
    Memory.read (Memory.writeList m a (samples h p)) (a + 1) = some p.g ∧
    Memory.read (Memory.writeList m a (samples h p)) (a + 2) = some p.b ∧
    (h.channels = 4 → Memory.read (Memory.writeList m a (samples h p)) (a + 3) = some p.a) ∧
    ∀ b, b < a ∨ a + spp h ≤ b → Memory.read (Memory.writeList m a (samples h p)) b = Memory.read m b := by
  have hs := spp_le_four h
  simp only [Memory.read_writeList, samples_length]
  refine ⟨?_, ?_, ?_, fun hc => ?_, fun b hb => ?_⟩
  · rw [if_pos (by omega)]; unfold samples; split <;> simp
  · rw [if_pos (by omega)]; unfold samples; split <;> simp
  · rw [if_pos (by omega)]; unfold samples; split <;> simp
  · have : spp h = 4 := by simp [spp, hc]
    rw [if_pos (by omega)]; simp [samples, hc]
  · rw [if_neg (by omega)]

/-! Fetching. -/

/-- `n` Fetches succeed exactly when `n` bytes are left, and then only move IN_POS (R54). -/
theorem fetchBytes_eq (n : Nat) (s : State) :
    fetchBytes n s = if n = 0 ∨ s.inPos + n ≤ s.input.length then .ok (s.advanceIn n) else .error .truncation := by
  induction n generalizing s with
  | zero => simp [fetchBytes, State.advanceIn]
  | succ n ih =>
    simp only [fetchBytes, fetch]
    by_cases h : s.inPos < s.input.length
    · rw [List.getElem?_eq_getElem h]
      have hadd : (s.advanceIn 1).advanceIn n = s.advanceIn (n + 1) := by
        simp [State.advanceIn, Nat.add_assoc, Nat.add_comm 1]
      simp only
      rw [ih, hadd]
      by_cases h2 : s.inPos + (n + 1) ≤ s.input.length
      · rw [if_pos (by simp; omega), if_pos (by omega)]
      · rw [if_neg (by simp; omega), if_neg (by omega)]
    · rw [List.getElem?_eq_none (by omega)]
      simp only
      rw [if_neg (by omega)]

theorem fetchBytes_ok {n : Nat} {s : State} (h : s.inPos + n ≤ s.input.length) :
    fetchBytes n s = .ok (s.advanceIn n) := by simp [fetchBytes_eq, h]

theorem fetchBytes_error {n : Nat} {s : State} (hn : 0 < n) (h : ¬ s.inPos + n ≤ s.input.length) :
    fetchBytes n s = .error .truncation := by
  rw [fetchBytes_eq, if_neg (by omega)]

/-- What a successful fetch of at least one byte gives. -/
theorem fetchBytes_inv {n : Nat} {s t : State} (hn : 0 < n) (h : fetchBytes n s = .ok t) :
    t = s.advanceIn n ∧ s.inPos + n ≤ s.input.length := by
  rw [fetchBytes_eq] at h
  split at h
  · rename_i hc
    exact ⟨by simpa using h.symm, by omega⟩
  · simp at h

/-- A failed fetch is a truncation. -/
theorem fetchBytes_cause {n : Nat} {s : State} {c : Cause} (h : fetchBytes n s = .error c) : c = .truncation := by
  rw [fetchBytes_eq] at h
  split at h
  · simp at h
  · simpa using h.symm

/-! The commit. -/

theorem commit_ok {p : Pixel} {s : State} (h : s.outPos + spp s.hdr ≤ total s.hdr) : commit p s = .ok (s.emit p) := by
  rw [commit, if_neg (by omega)]

theorem commit_error {p : Pixel} {s : State} (h : ¬ s.outPos + spp s.hdr ≤ total s.hdr) :
    commit p s = .error .overrun := by
  rw [commit, if_pos (by omega)]

theorem commit_inv {p : Pixel} {s t : State} (h : commit p s = .ok t) :
    t = s.emit p ∧ s.outPos + spp s.hdr ≤ total s.hdr := by
  unfold commit at h
  split at h
  · simp at h
  · exact ⟨by simpa using h.symm, by omega⟩

theorem commit_cause {p : Pixel} {s : State} {c : Cause} (h : commit p s = .error c) : c = .overrun := by
  unfold commit at h
  split at h
  · simpa using h.symm
  · simp at h

/-- One emission replaces the slot the pixel hashes to, whole, and no other (R25). -/
theorem State.emit_slot (p : Pixel) (s : State) (j : Fin 64) :
    (s.emit p).cache.get j = if j = pixelHash p then p else s.cache.get j := by
  simp only [State.emit_cache, Vector.get_eq_getElem, Vector.getElem_set, Fin.ext_iff, eq_comm]

/-- The pixels `ps` emitted one after another. -/
def State.emitAll (ps : List Pixel) (s : State) : State := ps.foldl (fun t p => t.emit p) s

@[simp] theorem State.emitAll_nil (s : State) : s.emitAll [] = s := rfl
@[simp] theorem State.emitAll_cons (p : Pixel) (ps : List Pixel) (s : State) :
    s.emitAll (p :: ps) = (s.emit p).emitAll ps := rfl

theorem State.emitAll_append (ps qs : List Pixel) (s : State) : s.emitAll (ps ++ qs) = (s.emitAll ps).emitAll qs := by
  simp [State.emitAll, List.foldl_append]

/-- Emitting pixels touches only OUT, OUT_POS, PX and CACHE (R135). -/
theorem State.emitAll_frame (ps : List Pixel) (s : State) :
    (s.emitAll ps).cfg = s.cfg ∧ (s.emitAll ps).input = s.input ∧ (s.emitAll ps).hasBeenReset = s.hasBeenReset ∧
    (s.emitAll ps).phase = s.phase ∧ (s.emitAll ps).cause = s.cause ∧ (s.emitAll ps).hdr = s.hdr ∧
    (s.emitAll ps).inPos = s.inPos ∧ (s.emitAll ps).freeCount = s.freeCount ∧
    (s.emitAll ps).outPos = s.outPos + ps.length * spp s.hdr := by
  induction ps generalizing s with
  | nil => simp
  | cons p ps ih =>
    obtain ⟨h1, h2, h3, h4, h5, h6, h7, h8, h9⟩ := ih (s.emit p)
    simp only [State.emit_cfg, State.emit_input, State.emit_hasBeenReset, State.emit_phase, State.emit_cause,
      State.emit_hdr, State.emit_inPos, State.emit_freeCount, State.emit_outPos] at *
    refine ⟨h1, h2, h3, h4, h5, h6, h7, h8, ?_⟩
    rw [State.emitAll_cons, h9, List.length_cons, Nat.succ_mul]; omega

/-- The repetitions of a RUN succeed exactly when they all fit, and then emit that many copies of PX (R180, R183). -/
theorem commitRun_eq (n : Nat) (s : State) :
    commitRun n s = if n = 0 ∨ s.outPos + n * spp s.hdr ≤ total s.hdr
      then .ok (s.emitAll (List.replicate n s.px)) else .error .overrun := by
  induction n generalizing s with
  | zero => simp [commitRun]
  | succ n ih =>
    have hpos := spp_pos s.hdr
    simp only [commitRun]
    by_cases h : s.outPos + spp s.hdr ≤ total s.hdr
    · rw [commit_ok h]
      simp only
      rw [ih, Nat.succ_mul, List.replicate_succ, State.emitAll_cons, State.emit_px]
      by_cases h2 : s.outPos + (n * spp s.hdr + spp s.hdr) ≤ total s.hdr
      · rw [if_pos (by simp; omega), if_pos (Or.inr h2)]
      · have hn : n ≠ 0 := by rintro rfl; simp at h2; omega
        rw [if_neg (by simp; omega), if_neg (by omega)]
    · rw [commit_error h]
      simp only
      rw [if_neg]
      rw [Nat.succ_mul]
      have := Nat.zero_le (n * spp s.hdr)
      omega

/-! The opcode step. -/

/-- Every way an opcode step can answer with a next state: it raises, or all bytes are there, the commits succeed, and the
loop test ends the step (R132, R197, R198). -/
theorem opcodeStep_cases {n : Nat} {f : State → Except Cause State} {s t : State} (hn : 0 < n)
    (h : opcodeStep n f s = .next t) :
    s.phase = .pixels ∧
    ((∃ c, t = s.raise c ∧ (c = .truncation ∧ ¬ s.inPos + n ≤ s.input.length ∨
        s.inPos + n ≤ s.input.length ∧ f (s.advanceIn n) = .error c)) ∨
     (s.inPos + n ≤ s.input.length ∧ ∃ u, f (s.advanceIn n) = .ok u ∧ t = u.endOpcode)) := by
  unfold opcodeStep at h
  split at h
  · rename_i hp
    refine ⟨hp, ?_⟩
    by_cases hf : s.inPos + n ≤ s.input.length
    · rw [fetchBytes_ok hf] at h
      simp only at h
      split at h
      · rename_i c hc
        exact .inl ⟨c, by simpa using h.symm, .inr ⟨hf, hc⟩⟩
      · rename_i u hu
        exact .inr ⟨hf, u, hu, by simpa using h.symm⟩
    · rw [fetchBytes_error hn hf] at h
      exact .inl ⟨.truncation, by simpa using h.symm, .inl ⟨rfl, hf⟩⟩
  · simp at h

/-- An opcode step whose commits succeed completes. -/
theorem opcodeStep_next {n : Nat} {f : State → Except Cause State} {s u : State} (hp : s.phase = .pixels)
    (hf : s.inPos + n ≤ s.input.length) (hu : f (s.advanceIn n) = .ok u) :
    opcodeStep n f s = .next u.endOpcode := by
  simp [opcodeStep, hp, fetchBytes_ok hf, hu]

/-- An opcode step whose bytes are not all in IN raises TruncationError. -/
theorem opcodeStep_truncated {n : Nat} {f : State → Except Cause State} {s : State} (hn : 0 < n)
    (hp : s.phase = .pixels) (hf : ¬ s.inPos + n ≤ s.input.length) :
    opcodeStep n f s = .next (s.raise .truncation) := by
  simp [opcodeStep, hp, fetchBytes_error hn hf]

/-- An opcode step whose commits raise enters ERROR with their cause. -/
theorem opcodeStep_raises {n : Nat} {f : State → Except Cause State} {s : State} {c : Cause} (hp : s.phase = .pixels)
    (hf : s.inPos + n ≤ s.input.length) (hc : f (s.advanceIn n) = .error c) :
    opcodeStep n f s = .next (s.raise c) := by
  simp [opcodeStep, hp, fetchBytes_ok hf, hc]

/-- An opcode step outside PIXELS is not enabled. -/
theorem opcodeStep_not_enabled {n : Nat} {f : State → Except Cause State} {s : State} (hp : s.phase ≠ .pixels) :
    opcodeStep n f s = .refused .notEnabled := by
  simp [opcodeStep, hp]

end Sys2Proof.Machine
end

