-- ==== Sys2Proof/Laws/PerInstr.lean ====
section
/-! SUPPORT. What is said of each instruction as syntax: how many bytes its encoding has. -/

namespace Sys2Proof.Laws.EncodedLength

/-- The bytes of an instruction are as many as its format has (R81, R82, R91). -/
def Statement (i : Instr) : Prop := (encode i).length = i.length

theorem header (magic width height : BitVec 32) (channels colorspace : Byte) :
    Statement (.header magic width height channels colorspace) := rfl

theorem rgb (r g b : Byte) : Statement (.rgb r g b) := rfl

theorem rgba (r g b a : Byte) : Statement (.rgba r g b a) := rfl

theorem index (idx : BitVec 6) : Statement (.index idx) := rfl

theorem diff (fr fg fb : BitVec 2) : Statement (.diff fr fg fb) := rfl

theorem luma (fdg : BitVec 6) (frg fbg : BitVec 4) : Statement (.luma fdg frg fbg) := rfl

theorem run (frun : BitVec 6) : Statement (.run frun) := rfl

end Sys2Proof.Laws.EncodedLength
end

