-- ==== Sys2Proof/Tests/Slice0.lean ====
section
/-! SUPPORT. The model's own tests: checks of well-formedness, words written out from the formats, single steps of the
spec's vectors (95_test_vectors.md), and for every statement with hypotheses a concrete case that meets them. -/

namespace Sys2Proof.Tests

open Sys2Proof Sys2Proof.Machine

/-! WellFormed: one ill-formed term per check. -/

theorem test_wellFormed_header : Instr.wellFormed (.header 0x716F6966 2 1 4 0) = true := by decide
theorem test_illFormed_magic : Instr.wellFormed (.header 0x786F6966 2 1 4 0) = false := by decide
theorem test_illFormed_colorspace : Instr.wellFormed (.header 0x716F6966 2 1 4 2) = false := by decide
theorem test_wellFormed_run : Instr.wellFormed (.run 61) = true := by decide
theorem test_illFormed_run : Instr.wellFormed (.run 62) = false ∧ Instr.wellFormed (.run 63) = false := by decide

/-! Decode: words written out from 30_encoding.md. -/

/-- V1: `71 6F 69 66 00 00 00 02 00 00 00 01 04 00` (R81). -/
theorem test_decode_header :
    decode .start [0x71, 0x6F, 0x69, 0x66, 0, 0, 0, 2, 0, 0, 0, 1, 4, 0] = .ok (.header 0x716F6966 2 1 4 0, []) := by
  decide

/-- `FE 64 96 C8` of P2 (R89). -/
theorem test_decode_rgb : decode .stream [0b11111110, 0x64, 0x96, 0xC8] = .ok (.rgb 100 150 200, []) := by decide

/-- `FF 01 02 03 04` of P2 (R89). -/
theorem test_decode_rgba :
    decode .stream [0b11111111, 0x01, 0x02, 0x03, 0x04] = .ok (.rgba 1 2 3 4, []) := by decide

/-- 00iiiiii with i = 000111: INDEX(7) of P2 (R85). -/
theorem test_decode_index : decode .stream [0b00000111] = .ok (.index 7, []) := by decide

/-- 01rrggbb of V36, tag 4B: the fields 00, 10, 11 (R86). -/
theorem test_decode_diff : decode .stream [0b01001011] = .ok (.diff 0 2 3, []) := by decide

/-- 10dddddd rrrrbbbb of V46, bytes 8A 3C: the fields 001010, 0011, 1100 (R87). -/
theorem test_decode_luma : decode .stream [0b10001010, 0b00111100] = .ok (.luma 10 3 12, []) := by decide

/-- 11nnnnnn with n = 000010: RUN.f(2) of P2 (R88). -/
theorem test_decode_run : decode .stream [0b11000010] = .ok (.run 2, []) := by decide

/-- V5 and V6: four wrong magic bytes are rejected as such, three bytes as too few (R111, R112). -/
theorem test_decode_rejects_header :
    decode .start [0x78, 0x6F, 0x69, 0x66] = .error .wrongMagic ∧ decode .start [0x78, 0x6F, 0x69] = .error .exhausted ∧
    decode .start [0x71, 0x6F, 0x69, 0x66, 0] = .error .exhausted := by decide

/-- V25, V39, V61 and an empty stream: the operands are missing (R54). -/
theorem test_decode_rejects_opcode :
    decode .stream [0xFE, 1, 2] = .error .exhausted ∧ decode .stream [0x85] = .error .exhausted ∧
    decode .stream [0xFF, 1, 2] = .error .exhausted ∧ decode .stream [] = .error .exhausted := by decide

/-- The first word of every table row, operands zero. -/
theorem test_table_words :
    decodeTableWord 8 0xFE = some (.rgb 0 0 0) ∧ decodeTableWord 8 0xFF = some (.rgba 0 0 0 0) ∧
    decodeTableWord 8 0x00 = some (.index 0) ∧ decodeTableWord 8 0x40 = some (.diff 0 0 0) ∧
    decodeTableWord 8 0x80 = some (.luma 0 0 0) ∧ decodeTableWord 8 0xC0 = some (.run 0) ∧
    decodeTableWord 32 0x66696F71 = some (.header 0x716F6966 0 0 0 0) := by decide

/-- Later bytes of a word are its later bits: `FE 09 08 07`, `FF 01 02 03 04`, `8A 3C` and the header of V1. -/
theorem test_table_word_bytes :
    decodeTableWord 32 0x070809FE = some (.rgb 9 8 7) ∧ decodeTableWord 40 0x04030201FF = some (.rgba 1 2 3 4) ∧
    decodeTableWord 16 0x3C8A = some (.luma 10 3 12) ∧
    decodeTableWord 112 0x0004010000000200000066696F71 = some (.header 0x716F6966 2 1 4 0) := by decide

/-! Single steps. -/

/-- A parameter set with no limit on OUT. -/
def params (bias : RunBias) (mask : LumaDgMask) : Config := ⟨bias, mask, none⟩

/-- The bytes of a header: `hdr(w,h,c,s)` of 95_test_vectors.md. -/
def hdr (h : Header) : List Byte := encode (.header magicTag h.width h.height h.channels h.colorspace)

/-- The state before the header step of a stream. -/
def atStart (cfg : Config) (input : List Byte) : State := State.launch cfg input 0

/-- The state after the header step of `hdr(h)` + `bytes`. -/
def atPixels (cfg : Config) (h : Header) (bytes : List Byte) : State :=
  { State.launch cfg (hdr h ++ bytes) 0 with phase := .pixels, hdr := h, inPos := 14 }

/-- The same with another pixel in PX. -/
def withPx (p : Pixel) (s : State) : State := { s with px := p }

/-- What is read of the next state, if there is one. -/
def after {α : Type} (read : State → α) : Host.Outcome State Fault Refusal → Option α
  | .next t => some (read t)
  | .fault _ => none
  | .refused _ => none

/-- V2: big-endian fields, TOTAL = 50724864, SPP = 3. -/
theorem test_header_fields :
    after (fun t => (t.phase, t.inPos, t.hdr.width.toNat, t.hdr.height.toNat, total t.hdr, spp t.hdr))
      (step (atStart Config.default [0x71, 0x6F, 0x69, 0x66, 0, 0, 1, 2, 0, 1, 0, 0, 3, 1])) =
    some (.pixels, 14, 258, 65536, 50724864, 3) := by decide

/-- V10: the magic check comes before the colorspace check. -/
theorem test_header_magic_first :
    after (fun t => (t.phase, t.cause))
      (step (atStart Config.default [0x71, 0x6F, 0x69, 0x46, 0, 0, 0, 1, 0, 0, 0, 1, 3, 2])) =
    some (.error, .formatMagic) := by decide

/-- V20: RGB straight after reset inherits alpha 255. -/
theorem test_rgb_alpha :
    after (fun t => (t.px, t.inPos, t.out.map Prod.snd, t.phase))
      (step (atPixels Config.default ⟨1, 1, 4, 0⟩ [0xFE, 9, 8, 7])) =
    some (⟨9, 8, 7, 255⟩, 18, [9, 8, 7, 255], .done) := by decide

/-- V21: three channels keep alpha in PX and the hash, not in OUT. -/
theorem test_rgba_three_channels :
    after (fun t => (t.px, t.cache.get 14, t.out.map Prod.snd))
      (step (atPixels Config.default ⟨1, 1, 3, 0⟩ [0xFF, 1, 2, 3, 4])) =
    some (⟨1, 2, 3, 4⟩, ⟨1, 2, 3, 4⟩, [1, 2, 3]) := by decide

/-- V30: INDEX(53) before anything was emitted gives {0,0,0,0}. -/
theorem test_index_unwritten :
    after (fun t => (t.px, t.out.map Prod.snd)) (step (atPixels Config.default ⟨1, 1, 4, 0⟩ [0x35])) =
    some (⟨0, 0, 0, 0⟩, [0, 0, 0, 0]) := by decide

/-- V32: 0 - 2 = 254 in each channel. -/
theorem test_diff_wraps_down :
    after (fun t => (t.px, t.cache.get 23)) (step (atPixels Config.default ⟨1, 1, 4, 0⟩ [0x40])) =
    some (⟨254, 254, 254, 255⟩, ⟨254, 254, 254, 255⟩) := by decide

/-- V36: three different deltas, wrapping in both directions. -/
theorem test_diff_channels :
    after (fun t => t.px) (step (withPx ⟨0, 128, 255, 200⟩ (atPixels Config.default ⟨1, 1, 4, 0⟩ [0x4B]))) =
    some ⟨254, 128, 0, 200⟩ := by decide

/-- V41 under both masks. -/
theorem test_luma_masks :
    after (fun t => t.px)
      (step (withPx ⟨250, 250, 250, 9⟩ (atPixels (params .one .sixBits) ⟨1, 1, 4, 0⟩ [0xBF, 0xFF]))) =
      some ⟨32, 25, 32, 9⟩ ∧
    after (fun t => t.px)
      (step (withPx ⟨250, 250, 250, 9⟩ (atPixels (params .one .fiveBits) ⟨1, 1, 4, 0⟩ [0xBF, 0xFF]))) =
      some ⟨0, 249, 0, 9⟩ := by decide

/-- V46: red and blue take different relative deltas. -/
theorem test_luma_channels :
    after (fun t => t.px)
      (step (withPx ⟨100, 150, 200, 255⟩ (atPixels Config.default ⟨1, 1, 4, 0⟩ [0x8A, 0x3C]))) =
    some ⟨73, 128, 182, 255⟩ := by decide

/-- V55 under both biases: three pixels overrun an image of two, two fill it. -/
theorem test_run_biases :
    after (fun t => (t.phase, t.cause)) (step (atPixels (params .one .sixBits) ⟨2, 1, 3, 0⟩ [0xC2])) =
      some (.error, .overrun) ∧
    after (fun t => (t.phase, t.out.map Prod.snd)) (step (atPixels (params .zero .sixBits) ⟨2, 1, 3, 0⟩ [0xC2])) =
      some (.done, [0, 0, 0, 0, 0, 0]) := by decide

/-- V51 under RUN_BIAS = 0: an empty run takes its byte and nothing else. -/
theorem test_run_empty :
    after (fun t => (t.phase, t.inPos, t.outPos, t.cache.get 53))
      (step (atPixels (params .zero .sixBits) ⟨1, 1, 3, 0⟩ [0xC0])) =
    some (.pixels, 15, 0, ⟨0, 0, 0, 0⟩) := by decide

/-- V74: a DIFF that finds no room. -/
theorem test_diff_overrun :
    after (fun t => (t.phase, t.cause)) (step (atPixels Config.default ⟨1, 1, 2, 0⟩ [0x6A])) =
    some (.error, .overrun) := by decide

/-- The state that `atPixels` names is the one the header step leads to. -/
theorem test_header_leads_to_pixels :
    step (atStart Config.default (hdr ⟨2, 1, 4, 0⟩ ++ [0x6A])) = .next (atPixels Config.default ⟨2, 1, 4, 0⟩ [0x6A]) := by
  rfl

/-- An opcode placed after reset stands behind a parsed header: the state the header step leads to (log entry 11). -/
theorem test_placed_opcode :
    step (atStart Config.default (placedHeaderBytes ++ tableBytes 5 0x40)) =
      .next (State.reset.withFetchWord 8 0x40) := by rfl

/-- The first step after reset runs the placed opcode and the placed header. -/
theorem test_placed_words_run :
    after (fun t => t.px) (step (State.reset.withFetchWord 8 0x40)) = some ⟨254, 254, 254, 255⟩ ∧
    after (fun t => t.phase) (step (State.reset.withFetchWord 112 0x0004010000000200000066696F71)) =
      some .pixels := by decide

/-! Witnesses: for each statement with hypotheses, concrete cases that meet them, at the boundaries of each clause. -/

/-- Four channels, one pixel. -/
def one4 : Header := ⟨1, 1, 4, 0⟩

/-- Three channels, two pixels. -/
def two3 : Header := ⟨2, 1, 3, 0⟩

/-- A state before a header step meets the invariant. -/
theorem inv_atStart : Inv (atStart Config.default (hdr one4 ++ [0x40])) where
  outCanonical := rfl
  outPosWidth := by decide
  causeIffError := by decide
  cacheInv := fun _ i => .inl (by simp [atStart, State.launch, Vector.get])
  writtenBelowCursor := fun _ => rfl
  inHeader := fun _ => ⟨rfl, rfl, rfl, rfl⟩
  inPixels := fun h => absurd h (by decide)
  inDone := fun h => absurd h (by decide)

/-- A state before an opcode step meets the invariant, whatever opcode bytes follow. -/
theorem inv_atPixels (h : Header) (bytes : List Byte) (hc : h.colorspace = 0 ∨ h.colorspace = 1)
    (ht : 0 < total h) : Inv (atPixels Config.default h bytes) where
  outCanonical := rfl
  outPosWidth := by show 0 < 2 ^ 72; decide
  causeIffError := ⟨fun h => (by cases h), fun h => absurd rfl h⟩
  cacheInv := fun _ i => .inl (by simp [atPixels, State.launch, Vector.get])
  writtenBelowCursor := fun _ => rfl
  inHeader := fun h => by cases h
  inPixels := fun _ => ⟨⟨Nat.le_refl 14, Nat.le_add_left 14 bytes.length, ⟨0, rfl⟩, hc, rfl⟩, ht⟩
  inDone := fun h => by cases h

/-- The state in DONE after the zero-size image of P5. -/
def atDone : State := { atPixels Config.default ⟨0, 7, 4, 1⟩ [0] with phase := .done }

/-- A state in ERROR. -/
def atError : State := (atPixels Config.default one4 []).raise .truncation

/-- It meets the invariant. -/
theorem inv_atDone : Inv atDone where
  outCanonical := rfl
  outPosWidth := by decide
  causeIffError := by decide
  cacheInv := fun _ i => .inl (by simp [atDone, atPixels, State.launch, Vector.get])
  writtenBelowCursor := fun _ => rfl
  inHeader := fun h => by cases h
  inPixels := fun h => by cases h
  inDone := fun _ => ⟨⟨by decide, by decide, ⟨0, rfl⟩, .inr rfl, rfl⟩, rfl⟩

theorem witness_ResetLeavesTheStatedValues :
    (∃ (s : State) (input : List Byte), State.launch Config.default [1] 1 = s.applyReset input) ∧
    (State.reset = State.reset ∧ ([] : List Byte) = []) :=
  ⟨⟨State.reset, [1], rfl⟩, rfl, rfl⟩

theorem witness_StepKeepsInvariant :
    (∃ t, Inv (atStart Config.default (hdr one4 ++ [0x40])) ∧
      step (atStart Config.default (hdr one4 ++ [0x40])) = .next t) ∧
    (∃ t, Inv (atPixels Config.default one4 [0x40]) ∧ step (atPixels Config.default one4 [0x40]) = .next t) ∧
    (∃ t, Inv (atPixels Config.default one4 [0x80]) ∧ step (atPixels Config.default one4 [0x80]) = .next t) :=
  ⟨⟨_, inv_atStart, rfl⟩, ⟨_, inv_atPixels one4 _ (.inl rfl) (by decide), rfl⟩,
    ⟨_, inv_atPixels one4 _ (.inl rfl) (by decide), rfl⟩⟩

theorem witness_StepsEnabledByPhase :
    ({ State.reset with hasBeenReset := false } : State).hasBeenReset = false ∧
    (atDone.hasBeenReset = true ∧ atDone.phase = .done) ∧ (atError.hasBeenReset = true ∧ atError.phase = .error) := by
  decide

theorem witness_StepKeepsInputAndParameters :
    ∃ t, step (atPixels Config.default one4 [0x40]) = .next t ∧ (atPixels Config.default one4 [0x40]).phase = .pixels ∧
      t.phase ≠ .error := ⟨_, rfl, rfl, by decide⟩

theorem witness_DecodeOfEncodeIsInstr :
    (∀ frun : BitVec 6, Instr.run 61 = .run frun → frun.toNat ≤ 61) ∧
    (∀ frun : BitVec 6, Instr.run 0 = .run frun → frun.toNat ≤ 61) ∧
    (∀ frun : BitVec 6, Instr.header 0 0 0 0 2 = .run frun → frun.toNat ≤ 61) := by decide

theorem witness_EncodeOfDecodeIsBytes :
    decode .start [0x71, 0x6F, 0x69, 0x66, 0, 0, 0, 2, 0, 0, 0, 1, 4, 0] = .ok (.header 0x716F6966 2 1 4 0, []) ∧
    decode .stream [0xFD, 0] = .ok (.run 61, [0]) := by decide

theorem witness_FirstByteSelectsOneOpcode :
    decode .start [0xFE, 0, 0, 0, 0, 0, 0, 0, 0, 0, 0, 0, 0, 0] = .ok (.header 0xFE000000 0 0 0 0, []) := by decide

/-- Exactly the operand bytes, and one too few, for the lengths 4, 5 and 2; no operand byte for length 1. -/
theorem witness_OpcodeLengthFromFirstByte :
    (opcodeLength (dispatch 0xFE) ≤ [0xFE, 0xFF, 0xC0].length + 1 ∧ [0, 0].length + 1 < opcodeLength (dispatch 0xFE)) ∧
    (opcodeLength (dispatch 0xFF) ≤ [0, 0, 0, 0].length + 1 ∧ [0, 0, 0].length + 1 < opcodeLength (dispatch 0xFF)) ∧
    (opcodeLength (dispatch 0x80) ≤ [0].length + 1 ∧ ([] : List Byte).length + 1 < opcodeLength (dispatch 0xBF)) ∧
    opcodeLength (dispatch 0xFD) ≤ ([] : List Byte).length + 1 := by decide

theorem witness_StepRunsTheDecodedInstruction :
    (let s := atStart Config.default (hdr one4)
     s.hasBeenReset = true ∧ s.phase = .header ∧
      decode .start (s.input.drop s.inPos) = .ok (.header 0x716F6966 1 1 4 0, [])) ∧
    (let s := atPixels Config.default one4 [0x40, 0x07]
     s.hasBeenReset = true ∧ s.phase = .pixels ∧ decode .stream (s.input.drop s.inPos) = .ok (.diff 0 0 0, [0x07])) := by
  decide

theorem witness_StepRefinesThePseudocode :
    (let s := atStart Config.default []; s.hasBeenReset = true ∧ s.phase = .header) ∧
    (let s := atPixels Config.default one4 [0xFF]; s.hasBeenReset = true ∧ s.phase = .pixels) := by decide

/-- TOTAL equal to OUT_CAPACITY, IN exactly long enough; and TOTAL = 0 with OUT_CAPACITY = 0. -/
theorem witness_HeaderStoresItsFields :
    (let s := atStart ⟨.one, .sixBits, some 4⟩ (hdr one4)
     s.phase = .header ∧ Fetchable 14 s ∧ ((0 : Byte) = 0 ∨ (0 : Byte) = 1) ∧
      ∀ c, s.cfg.outCapacity = some c → (1 : BitVec 32).toNat * (1 : BitVec 32).toNat * (4 : Byte).toNat ≤ c) ∧
    (let s := atStart ⟨.one, .sixBits, some 0⟩ (hdr ⟨0, 7, 4, 1⟩)
     s.phase = .header ∧ Fetchable 14 s ∧ ((1 : Byte) = 0 ∨ (1 : Byte) = 1) ∧
      ∀ c, s.cfg.outCapacity = some c → (0 : BitVec 32).toNat * (7 : BitVec 32).toNat * (4 : Byte).toNat ≤ c) :=
  ⟨⟨rfl, by decide, .inl rfl, fun c h => by cases h; decide⟩, ⟨rfl, by decide, .inr rfl, fun c h => by cases h; decide⟩⟩

/-- V2, with TOTAL equal to OUT_CAPACITY. -/
theorem witness_HeaderFieldsAreBigEndian :
    let s := atStart ⟨.one, .sixBits, some 50724864⟩ ([0x71, 0x6F, 0x69, 0x66, 0, 0, 1, 2, 0, 1, 0, 0, 3, 1] ++ [0xAA])
    s.hasBeenReset = true ∧ s.phase = .header ∧ ((1 : Byte) = 0 ∨ (1 : Byte) = 1) ∧
      fitsCapacity s.cfg.outCapacity (total ⟨be32 0 0 1 2, be32 0 1 0 0, 3, 1⟩) = true ∧ s.inPos = 0 ∧
      s.input = [0x71, 0x6F, 0x69, 0x66, 0, 0, 1, 2, 0, 1, 0, 0, 3, 1] ++ [0xAA] := by decide

/-- Three bytes; four wrong ones; thirteen with the right magic; fourteen with colorspace 2 and with 255. -/
theorem witness_HeaderErrorsInOrder :
    (∀ input, (atStart Config.default input).hasBeenReset = true ∧ (atStart Config.default input).phase = .header) ∧
    (atStart Config.default [0x71, 0x6F, 0x69]).remaining.length < 4 ∧
    (4 ≤ (atStart Config.default [0x78, 0x6F, 0x69, 0x66]).remaining.length ∧
      (atStart Config.default [0x78, 0x6F, 0x69, 0x66]).remaining.take 4 ≠ [0x71, 0x6F, 0x69, 0x66]) ∧
    ((atStart Config.default ((hdr one4).take 13)).remaining.take 4 = [0x71, 0x6F, 0x69, 0x66] ∧
      (atStart Config.default ((hdr one4).take 13)).remaining.length < 14) ∧
    ((atStart Config.default (hdr ⟨1, 1, 3, 2⟩)).remaining.take 4 = [0x71, 0x6F, 0x69, 0x66] ∧
      (atStart Config.default (hdr ⟨1, 1, 3, 2⟩)).remaining[13]? = some 2 ∧ (2 : Byte) ≠ 0 ∧ (2 : Byte) ≠ 1) ∧
    ((atStart Config.default (hdr ⟨1, 1, 3, 255⟩)).remaining.take 4 = [0x71, 0x6F, 0x69, 0x66] ∧
      (atStart Config.default (hdr ⟨1, 1, 3, 255⟩)).remaining[13]? = some 255 ∧ (255 : Byte) ≠ 0 ∧ (255 : Byte) ≠ 1) :=
  ⟨fun _ => ⟨rfl, rfl⟩, by decide, by decide, by decide, by decide, by decide⟩

theorem witness_ZeroSizeImageIsDone :
    let s := atStart Config.default (hdr ⟨0, 1, 4, 0⟩ ++ [0x40])
    Inv s ∧ s.hasBeenReset = true ∧ s.phase = .header ∧ ((0 : Byte) = 0 ∨ (0 : Byte) = 1) ∧
      ((0 : BitVec 32) = 0 ∨ (1 : BitVec 32) = 0 ∨ (4 : Byte) = 0) ∧
      s.input = encode (.header 0x716F6966 0 1 4 0) ++ [0x40] := by
  refine ⟨⟨rfl, by decide, by decide, fun _ i => .inl ?_, fun _ => rfl, fun _ => ⟨rfl, rfl, rfl, rfl⟩, ?_, ?_⟩, rfl, rfl, .inl rfl, .inl rfl, rfl⟩
  · simp [atStart, State.launch, Vector.get]
  · intro h; cases h
  · intro h; cases h

/-- OUT_CAPACITY one less than TOTAL. -/
theorem witness_HeaderBeyondCapacityIsRefused :
    let s := atStart ⟨.one, .sixBits, some 3⟩ (hdr one4)
    s.phase = .header ∧ Fetchable 14 s ∧ ((0 : Byte) = 0 ∨ (0 : Byte) = 1) ∧ s.cfg.outCapacity = some 3 ∧
      3 < (1 : BitVec 32).toNat * (1 : BitVec 32).toNat * (4 : Byte).toNat := by decide

/-- IN exactly long enough, room for exactly one pixel. -/
theorem witness_RgbInheritsAlpha :
    let s := atPixels Config.default one4 [0xFE, 9, 8, 7]
    s.phase = .pixels ∧ Fetchable 4 s ∧ HasRoom 1 s := by decide

theorem witness_RgbaTakesItsOwnAlpha :
    let s := atPixels Config.default one4 [0xFF, 1, 2, 3, 4]
    s.phase = .pixels ∧ Fetchable 5 s ∧ HasRoom 1 s := by decide

theorem witness_IndexEmitsTheSlot :
    let s := atPixels Config.default one4 [0x35]
    s.phase = .pixels ∧ Fetchable 1 s ∧ HasRoom 1 s := by decide

theorem witness_IndexOfUnwrittenSlot :
    let s := atPixels Config.default one4 [0x3F]
    s.phase = .pixels ∧ Fetchable 1 s ∧ HasRoom 1 s ∧ s.cache.get (63 : BitVec 6).toFin = ⟨0, 0, 0, 0⟩ := by decide

/-- A state with the pixel (1,2,3,4) in its slot 14 (V31). -/
def withSlot14 : State :=
  { atPixels Config.default one4 [0x0E] with cache := (Vector.replicate 64 zeroPixel).set 14 ⟨1, 2, 3, 4⟩ }

theorem witness_IndexOfWrittenSlotKeepsCache :
    withSlot14.phase = .pixels ∧ Fetchable 1 withSlot14 ∧ HasRoom 1 withSlot14 ∧ CacheInv withSlot14.cache ∧
      withSlot14.cache.get (14 : BitVec 6).toFin ≠ ⟨0, 0, 0, 0⟩ :=
  ⟨rfl, by decide, by decide, by unfold CacheInv; decide, by decide⟩

theorem witness_DiffMovesEachChannel :
    let s := atPixels Config.default one4 [0x40]
    s.phase = .pixels ∧ Fetchable 1 s ∧ HasRoom 1 s := by decide

/-- Both masks. -/
theorem witness_LumaMovesByGreen :
    (let s := atPixels (params .one .sixBits) one4 [0xA0, 0x88]
     s.phase = .pixels ∧ Fetchable 2 s ∧ HasRoom 1 s ∧ s.cfg.lumaDgMask = .sixBits) ∧
    (let s := atPixels (params .one .fiveBits) one4 [0xA0, 0x88]
     s.phase = .pixels ∧ Fetchable 2 s ∧ HasRoom 1 s ∧ s.cfg.lumaDgMask = .fiveBits) := by decide

/-- Runs that fill OUT exactly under both biases, and an empty run. -/
theorem witness_RunRepeatsPreviousPixel :
    (let s := atPixels (params .one .sixBits) two3 [0xC1]
     (s.cfg.runBias = .zero → 2 = (1 : BitVec 6).toNat) ∧ (s.cfg.runBias = .one → 2 = (1 : BitVec 6).toNat + 1) ∧
      s.phase = .pixels ∧ Fetchable 1 s ∧ HasRoom 2 s) ∧
    (let s := atPixels (params .zero .sixBits) two3 [0xC2]
     (s.cfg.runBias = .zero → 2 = (2 : BitVec 6).toNat) ∧ (s.cfg.runBias = .one → 2 = (2 : BitVec 6).toNat + 1) ∧
      s.phase = .pixels ∧ Fetchable 1 s ∧ HasRoom 2 s) ∧
    (let s := atPixels (params .zero .sixBits) two3 [0xC0]
     (s.cfg.runBias = .zero → 0 = (0 : BitVec 6).toNat) ∧ (s.cfg.runBias = .one → 0 = (0 : BitVec 6).toNat + 1) ∧
      s.phase = .pixels ∧ Fetchable 1 s ∧ HasRoom 0 s) := by decide

theorem witness_ZeroLengthRun :
    (let s := atPixels (params .zero .sixBits) two3 [0xC0]
     s.phase = .pixels ∧ Fetchable 1 s ∧ s.outPos < total s.hdr ∧ s.cfg.runBias = .zero) ∧
    (let s := atPixels (params .one .sixBits) two3 [0xC0]
     s.phase = .pixels ∧ Fetchable 1 s ∧ s.outPos < total s.hdr ∧ s.cfg.runBias = .one ∧
      ∃ t, exec (.run 0) s = .next t ∧ t.phase ≠ .error) :=
  ⟨by decide, rfl, by decide, by decide, rfl, _, rfl, by decide⟩

/-- Two repetitions that fill OUT exactly; the RUN of V29 straight after the header, and the same under RUN_BIAS = 0. -/
theorem witness_RunRepetitionsAreIdempotent :
    (∃ t u, commitRun (1 + 1) (atPixels Config.default two3 [0xC1]) = .ok t ∧
      commit (atPixels Config.default two3 [0xC1]).px (atPixels Config.default two3 [0xC1]) = .ok u) ∧
    (let s := atPixels Config.default two3 [0xC1]
     s.phase = .pixels ∧ s.px = ⟨0, 0, 0, 255⟩ ∧ Fetchable 1 s ∧ 0 < runLength s.cfg.runBias 1 ∧
      HasRoom (runLength s.cfg.runBias 1) s) ∧
    (let s := atPixels (params .zero .sixBits) two3 [0xC1]
     s.phase = .pixels ∧ s.px = ⟨0, 0, 0, 255⟩ ∧ Fetchable 1 s ∧ 0 < runLength s.cfg.runBias 1 ∧
      HasRoom (runLength s.cfg.runBias 1) s) :=
  ⟨⟨_, _, rfl, rfl⟩, by decide, by decide⟩

/-- One byte too few for RGBA; no tag; RGB and LUMA with one operand byte too few. -/
theorem witness_TruncatedOpcodeRaises :
    (let s := atPixels Config.default one4 [0xFF, 1, 2, 3]
     (Instr.rgba 1 2 3 4).place = .stream ∧ s.phase = .pixels ∧ ¬ Fetchable (Instr.rgba 1 2 3 4).length s) ∧
    (let s := atPixels Config.default one4 []
     s.hasBeenReset = true ∧ s.phase = .pixels ∧ s.remaining = []) ∧
    (let s := atPixels Config.default one4 [0xFE, 1, 2]
     s.hasBeenReset = true ∧ s.phase = .pixels ∧ s.remaining = 0xFE :: [1, 2] ∧ [1, 2].length + 1 < opcodeLength (dispatch 0xFE)) ∧
    (let s := atPixels Config.default one4 [0x80]
     s.hasBeenReset = true ∧ s.phase = .pixels ∧ s.remaining = 0x80 :: [] ∧ ([] : List Byte).length + 1 < opcodeLength (dispatch 0x80)) := by decide

/-- A RUN one pixel too long (V55), and a DIFF with two samples of room (V74). -/
theorem witness_OverrunRaises :
    (let s := atPixels Config.default two3 [0xC2]
     (Instr.run 2).place = .stream ∧ s.phase = .pixels ∧ Fetchable (Instr.run 2).length s ∧ s.outPos ≤ total s.hdr ∧
      ¬ HasRoom (pixelsOf (.run 2) s).length s) ∧
    (let s := atPixels Config.default ⟨1, 1, 2, 0⟩ [0x6A]
     (Instr.diff 2 2 2).place = .stream ∧ s.phase = .pixels ∧ Fetchable (Instr.diff 2 2 2).length s ∧
      s.outPos ≤ total s.hdr ∧ ¬ HasRoom (pixelsOf (.diff 2 2 2) s).length s) := by decide

theorem witness_FirstPixelAlwaysFits :
    (Inv (atPixels Config.default two3 []) ∧ (atPixels Config.default two3 []).phase = .pixels ∧ two3.channels = 3) ∧
    (Inv (atPixels Config.default one4 []) ∧ (atPixels Config.default one4 []).phase = .pixels ∧ one4.channels = 4) :=
  ⟨⟨inv_atPixels two3 _ (.inl rfl) (by decide), rfl, rfl⟩, ⟨inv_atPixels one4 _ (.inl rfl) (by decide), rfl, rfl⟩⟩

/-- (Three channels, in PIXELS.) A header; a RUN one pixel too long and one that just fits; a LUMA without its second byte. -/
theorem witness_ErrorsEachStepCanRaise :
    (∃ t, Inv (atStart Config.default (hdr one4 ++ [0x40])) ∧
      step (atStart Config.default (hdr one4 ++ [0x40])) = .next t) ∧
    (∃ t, Inv (atPixels Config.default two3 [0xC2]) ∧ step (atPixels Config.default two3 [0xC2]) = .next t ∧
      fetchInstr .stream (atPixels Config.default two3 [0xC2]) = .ok (.run 2) ∧
      ¬ HasRoom 3 (atPixels Config.default two3 [0xC2])) ∧
    (∃ t, Inv (atPixels Config.default two3 [0xC1]) ∧ step (atPixels Config.default two3 [0xC1]) = .next t ∧
      fetchInstr .stream (atPixels Config.default two3 [0xC1]) = .ok (.run 1) ∧ t.cause = .none) ∧
    (∃ t, Inv (atPixels Config.default two3 [0x85]) ∧ step (atPixels Config.default two3 [0x85]) = .next t ∧
      fetchInstr .stream (atPixels Config.default two3 [0x85]) = .error .exhausted ∧
      (atPixels Config.default two3 [0x85]).remaining = 0x85 :: []) :=
  ⟨⟨_, inv_atStart, rfl⟩,
    ⟨_, inv_atPixels two3 _ (.inl rfl) (by decide), rfl, rfl, by decide⟩,
    ⟨_, inv_atPixels two3 _ (.inl rfl) (by decide), rfl, rfl, rfl⟩,
    ⟨_, inv_atPixels two3 _ (.inl rfl) (by decide), rfl, rfl, rfl⟩⟩

theorem witness_ErrorEntryLeavesOnlyTheCause :
    ∃ t, step (atPixels Config.default two3 [0xC2]) = .next t ∧ t.phase = .error := ⟨_, rfl, rfl⟩

theorem witness_HashOfAPixel :
    ∃ t, commit ⟨1, 2, 3, 4⟩ (atPixels Config.default one4 []) = .ok t := ⟨_, rfl⟩

theorem witness_HashIsWidthInsensitive : 6 ≤ 6 ∧ 6 ≤ 32 := by decide

theorem witness_SampleOrderOfPixels :
    (atPixels Config.default two3 []).outPos = 0 ∧
      ([⟨1, 2, 3, 4⟩, ⟨5, 6, 7, 8⟩] : List Pixel)[1]? = some ⟨5, 6, 7, 8⟩ := by decide

theorem witness_StatusPortByPhase :
    (let s := atStart Config.default []; s.hasBeenReset = true ∧ s.phase = .header) ∧
    (let s := atPixels Config.default one4 []; s.hasBeenReset = true ∧ s.phase = .pixels) ∧
    (atDone.hasBeenReset = true ∧ atDone.phase = .done) ∧ (atError.hasBeenReset = true ∧ atError.phase = .error) := by
  decide

theorem witness_DoneReturnsTotalSamples : Inv atDone ∧ atDone.phase = .done := ⟨inv_atDone, rfl⟩

/-- The state at reset, and the two states after it of the stream of V32, the last with one emitted pixel. -/
theorem witness_HistoryDeterminesTheState :
    ∃ s, Reached Config.default (hdr one4 ++ [0x40]) [⟨254, 254, 254, 255⟩] s ∧ s.phase = .done := by
  refine ⟨_, .step (ps := []) (s := atPixels Config.default one4 [0x40]) ?_ rfl (by decide), by decide⟩
  exact .step (ps := []) (.launch 0) rfl (by decide)

theorem witness_StepMakesProgress :
    (∃ t, Inv (atStart Config.default (hdr one4 ++ [0x40])) ∧
      step (atStart Config.default (hdr one4 ++ [0x40])) = .next t ∧ t.phase ≠ .error) ∧
    (∃ t, Inv (atPixels Config.default one4 [0xC0]) ∧ step (atPixels Config.default one4 [0xC0]) = .next t ∧
      t.phase ≠ .error ∧ (atPixels Config.default one4 [0xC0]).cfg.runBias = .one) :=
  ⟨⟨_, inv_atStart, rfl, by decide⟩, ⟨_, inv_atPixels one4 _ (.inl rfl) (by decide), rfl, by decide, rfl⟩⟩

/-- V64: the lone `FF` after the last opcode replaced by other bytes. -/
theorem witness_TrailingBytesAreNotRead :
    ∃ t, step (atPixels Config.default one4 [0xFF, 1, 2, 3, 4, 0xFF]) = .next t ∧ t.phase ≠ .error ∧
      (hdr one4 ++ [0xFF, 1, 2, 3, 4, 0, 0]).take t.inPos =
        (atPixels Config.default one4 [0xFF, 1, 2, 3, 4, 0xFF]).input.take t.inPos := ⟨_, rfl, by decide, by decide⟩

theorem witness_BoundariesIgnorePixelData :
    SameBoundaries (atPixels (params .one .sixBits) one4 [0x80, 0])
      (withPx ⟨1, 2, 3, 4⟩ (atPixels (params .one .fiveBits) one4 [0x80, 0])) :=
  ⟨rfl, rfl, rfl, rfl, rfl, rfl, rfl, rfl, rfl, rfl⟩

/-- Two states in ERROR with different PX, and two before the header step with different header registers. -/
theorem witness_UnspecifiedValuesNeverSurface :
    SameDecode atError (withPx ⟨1, 2, 3, 4⟩ atError) ∧
    SameDecode State.reset { State.reset with hdr := ⟨1, 2, 3, 4⟩ } := by
  refine ⟨⟨rfl, rfl, rfl, rfl, rfl, ?_, ?_⟩, ⟨rfl, rfl, rfl, rfl, rfl, ?_, ?_⟩⟩
  · intro h; exact absurd rfl h
  · intro h; cases h
  · intro _; exact ⟨rfl, rfl, rfl, rfl, rfl⟩
  · intro h; cases h

/-- The state after the first of two DIFF opcodes, with one emitted pixel. -/
def afterOne : State := ((atPixels Config.default ⟨2, 1, 4, 0⟩ [0x40, 0x40]).advanceIn 1).emit ⟨254, 254, 254, 255⟩

theorem inv_afterOne : Inv afterOne where
  outCanonical := rfl
  outPosWidth := by decide
  causeIffError := by decide
  cacheInv := fun _ => by unfold CacheInv; decide
  writtenBelowCursor := fun _ => rfl
  inHeader := fun h => by cases h
  inPixels := fun _ => ⟨⟨by decide, by decide, ⟨1, rfl⟩, .inl rfl, rfl⟩, by decide⟩
  inDone := fun h => by cases h

/-- A header step, with no pixel emitted, and an opcode step after one pixel. -/
theorem witness_StepKeepsHistory :
    (∃ t, Inv (atStart Config.default (hdr one4 ++ [0x40])) ∧ History [] (atStart Config.default (hdr one4 ++ [0x40])) ∧
      step (atStart Config.default (hdr one4 ++ [0x40])) = .next t ∧ t.phase ≠ .error) ∧
    (∃ t, Inv afterOne ∧ History [⟨254, 254, 254, 255⟩] afterOne ∧ step afterOne = .next t ∧ t.phase ≠ .error) :=
  ⟨⟨_, inv_atStart, ⟨rfl, fun i => by simp [atStart, State.launch, Vector.get], (Nat.zero_mul _).symm, rfl⟩, rfl, by decide⟩,
    ⟨_, inv_afterOne, ⟨rfl, by decide, rfl, rfl⟩, rfl, by decide⟩⟩

theorem witness_DecodesAreIndependent : (atPixels Config.default one4 [0x40]).cfg = atError.cfg := rfl

end Sys2Proof.Tests
end

section
/-! PROOFS. 20_memory.md: the big-endian fields of the header (R56) and the order of the samples in OUT (R58). -/

namespace Sys2Proof.Machine

/-! The header step. -/

/-- `be32` loses nothing: four bytes always fit in 32 bits (R56). -/
theorem be32_toNat (b0 b1 b2 b3 : Byte) :
    (be32 b0 b1 b2 b3).toNat = b0.toNat * 2 ^ 24 + b1.toNat * 2 ^ 16 + b2.toNat * 2 ^ 8 + b3.toNat := by
  have h0 := b0.isLt
  have h1 := b1.isLt
  have h2 := b2.isLt
  have h3 := b3.isLt
  rw [be32, BitVec.toNat_ofNat]
  exact Nat.mod_eq_of_lt (by omega)

theorem colorspaceOk_iff (colorspace : Byte) : colorspaceOk colorspace = true ↔ colorspace = 0 ∨ colorspace = 1 := by
  simp [colorspaceOk]

/-- In HEADER, a step runs the instruction that the bytes at pc decode to (R110). -/
theorem step_of_decode_start {s : State} {i : Instr} {rest : List Byte} (hr : s.hasBeenReset = true)
    (hp : s.phase = .header) (hd : decode .start s.remaining = .ok (i, rest)) : step s = exec i s := by
  simp [step, hr, hp, stepAt, fetchInstr, hd]

/-- The header checks pass on fourteen bytes with the right magic and a known colorspace (R110 to R114). -/
theorem headerChecks_ok {h : Header} {s : State} (hf : Fetchable 14 s) (hc : h.colorspace = 0 ∨ h.colorspace = 1) :
    headerChecks magicTag h s = .ok ((s.advanceIn 14).setHeader h) := by
  have hmagic : fetchBytes 4 s = .ok (s.advanceIn 4) := fetchBytes_ok (by omega)
  have hfields : fetchBytes 10 (s.advanceIn 4) = .ok ((s.advanceIn 4).advanceIn 10) :=
    fetchBytes_ok (by rw [State.advanceIn_inPos, State.advanceIn_input]; omega)
  simp only [headerChecks, hmagic, hfields, (colorspaceOk_iff _).mpr hc, if_true]
  rfl

/-- A valid header within OUT_CAPACITY completes: pc moves past it, its fields are stored, PHASE follows (R110, R117). -/
theorem execHeader_next {h : Header} {s : State} (hp : s.phase = .header) (hf : Fetchable 14 s)
    (hc : h.colorspace = 0 ∨ h.colorspace = 1) (hcap : fitsCapacity s.cfg.outCapacity (total h) = true) :
    execHeader magicTag h.width h.height h.channels h.colorspace s =
      .next ((s.advanceIn 14).setHeader h).endHeader := by
  simp [execHeader, hp, headerChecks_ok hf hc, hcap]

/-- Settles O14: the step stores the two `be32` values it decodes, and `be32` is exact. -/
theorem headerFieldsAreBigEndian : Obligations.HeaderFieldsAreBigEndian := by
  refine ⟨fun s w0 w1 w2 w3 h0 h1 h2 h3 c cs rest hr hp hc hcap hpos hin => ?_, by decide⟩
  have hdecode : decode .start s.remaining =
      .ok (.header magicTag (be32 w0 w1 w2 w3) (be32 h0 h1 h2 h3) c cs, rest) := by
    rw [State.remaining, hpos, hin]
    rfl
  have hf : Fetchable 14 s := by simp [Fetchable, hpos, hin]
  exact ⟨_, (step_of_decode_start hr hp hdecode).trans (execHeader_next hp hf hc hcap),
    be32_toNat w0 w1 w2 w3, be32_toNat h0 h1 h2 h3⟩

/-! The samples of emitted pixels. -/

/-- Emissions write at OUT_POS and up, so the samples below it stay (R58). -/
theorem read_emitAll_of_lt (ps : List Pixel) {s : State} {b : Nat} (hb : b < s.outPos) :
    Memory.read (s.emitAll ps).out b = Memory.read s.out b := by
  induction ps generalizing s with
  | nil => rfl
  | cons p ps ih =>
    obtain ⟨-, -, -, -, hframe⟩ := read_samples s.out s.hdr p s.outPos
    calc Memory.read (s.emitAll (p :: ps)).out b
        = Memory.read (s.emit p).out b := ih (Nat.lt_add_right _ hb)
      _ = Memory.read s.out b := hframe b (.inl hb)

/-- The first pixel emitted is still at the old OUT_POS after all later emissions (R58). -/
theorem read_emitAll_cons (p : Pixel) (ps : List Pixel) (s : State) :
    Memory.read (s.emitAll (p :: ps)).out s.outPos = some p.r ∧
    Memory.read (s.emitAll (p :: ps)).out (s.outPos + 1) = some p.g ∧
    Memory.read (s.emitAll (p :: ps)).out (s.outPos + 2) = some p.b ∧
    (s.hdr.channels = 4 → Memory.read (s.emitAll (p :: ps)).out (s.outPos + 3) = some p.a) := by
  obtain ⟨hr, hg, hb, ha, -⟩ := read_samples s.out s.hdr p s.outPos
  have hkeep : ∀ d, d < spp s.hdr →
      Memory.read (s.emitAll (p :: ps)).out (s.outPos + d) = Memory.read (s.emit p).out (s.outPos + d) :=
    fun d hd => read_emitAll_of_lt ps (Nat.add_lt_add_left hd _)
  have hspp := (spp_le_four s.hdr).1
  exact ⟨(hkeep 0 (by omega)).trans hr, (hkeep 1 (by omega)).trans hg, (hkeep 2 (by omega)).trans hb,
    fun hc => (hkeep 3 (by simp [spp, hc])).trans (ha hc)⟩

/-- Settles O36: the k pixels before the k-th move OUT_POS to k * SPP, and the ones after it write above its samples. -/
theorem sampleOrderOfPixels : Obligations.SampleOrderOfPixels := by
  rintro s ps k p hpos hk t rfl
  obtain ⟨hlt, rfl⟩ := List.getElem?_eq_some_iff.mp hk
  have hsplit : s.emitAll ps = (s.emitAll (ps.take k)).emitAll (ps[k] :: ps.drop (k + 1)) := by
    rw [← State.emitAll_append, List.cons_getElem_drop_succ, List.take_append_drop]
  obtain ⟨-, -, -, -, -, hhdr, -, -, hcursor⟩ := State.emitAll_frame (ps.take k) s
  have hreads := read_emitAll_cons ps[k] (ps.drop (k + 1)) (s.emitAll (ps.take k))
  rw [← hsplit, hhdr, hcursor, hpos, Nat.zero_add, List.length_take_of_le hlt.le] at hreads
  exact hreads

end Sys2Proof.Machine
end

section
/-! PROOFS. 30_encoding.md: the map of the first byte (R84) and the length of an opcode (R91). -/

namespace Sys2Proof

/-! The first byte. -/

/-- The prefix of a tag, bits 7..6, numbers the quarter of the byte range it is in (R83). -/
theorem tagPrefix_toNat (tag : Byte) : (tag.extractLsb' 6 2).toNat = tag.toNat / 64 := by
  have hlt := tag.isLt
  rw [BitVec.extractLsb'_toNat, Nat.shiftRight_eq_div_pow, Nat.mod_eq_of_lt (by omega)]

/-- The mask of R84 keeps the prefix of a tag and clears the six bits below it. -/
theorem tag_and_mask_toNat (tag : Byte) : (tag &&& 0xC0).toNat = tag.toNat / 64 * 64 := by
  revert tag
  decide

/-- The first byte read as a number: two exact values, then the quarters of the byte range (R83, R134). -/
theorem dispatch_eq (tag : Byte) :
    dispatch tag =
      if tag.toNat = 254 then .rgb else if tag.toNat = 255 then .rgba
      else if tag.toNat / 64 = 0 then .index else if tag.toNat / 64 = 1 then .diff
      else if tag.toNat / 64 = 2 then .luma else .run := by
  simp only [dispatch, ← BitVec.toNat_inj, tagPrefix_toNat]
  rfl

/-- The lowest and the highest first byte that select an opcode (R84). -/
def Opcode.tagRange : Opcode → Nat × Nat
  | .rgb => (0xFE, 0xFE)
  | .rgba => (0xFF, 0xFF)
  | .index => (0x00, 0x3F)
  | .diff => (0x40, 0x7F)
  | .luma => (0x80, 0xBF)
  | .run => (0xC0, 0xFD)

/-- The first bytes that select an opcode are exactly those of its range (R84). -/
theorem dispatch_eq_iff (tag : Byte) (op : Opcode) :
    dispatch tag = op ↔ op.tagRange.1 ≤ tag.toNat ∧ tag.toNat ≤ op.tagRange.2 := by
  have hlt := tag.isLt
  rw [dispatch_eq]
  constructor
  · rintro rfl
    split_ifs <;> simp only [Opcode.tagRange] <;> omega
  · rintro ⟨hlo, hhi⟩
    cases op <;> simp only [Opcode.tagRange] at hlo hhi <;> simp (disch := omega) only [if_pos, if_neg]

/-- Each opcode is selected by as many of the 256 bytes as its range holds (R84). -/
theorem count_dispatch (op : Opcode) :
    ((List.range 256).map fun n => dispatch (BitVec.ofNat 8 n)).count op = op.tagRange.2 + 1 - op.tagRange.1 := by
  have htop : op.tagRange.2 < 256 := by cases op <;> decide
  have hfilter : (Finset.range 256).filter (fun n => dispatch (BitVec.ofNat 8 n) = op) =
      Finset.Icc op.tagRange.1 op.tagRange.2 := by
    ext n
    simp only [Finset.mem_filter, Finset.mem_range, Finset.mem_Icc, dispatch_eq_iff, BitVec.toNat_ofNat]
    omega
  rw [← Nat.card_Icc, ← hfilter, List.count, List.countP_map, List.countP_eq_length_filter]
  rfl

/-- Only the prefix 10, RGB and RGBA have operand bytes (R91). -/
theorem opcodeLength_dispatch (tag : Byte) :
    opcodeLength (dispatch tag) =
      if tag = 0xFE then 4 else if tag = 0xFF then 5 else if tag.extractLsb' 6 2 = 2 then 2 else 1 := by
  simp only [dispatch, apply_ite opcodeLength]
  by_cases hluma : tag.extractLsb' 6 2 = 2
  · simp [hluma, opcodeLength]
  · simp only [if_neg hluma, opcodeLength, ite_self]

/-! Operand bytes. -/

/-- With enough bytes after the tag, an opcode of its length decodes and leaves what stands behind them (R82, R91). -/
theorem decodeOperands_ok (tag : Byte) {rest : List Byte} {op : Opcode} (h : opcodeLength op ≤ rest.length + 1) :
    ∃ i, decodeOperands tag rest op = .ok (i, (tag :: rest).drop (opcodeLength op)) ∧
      i.length = opcodeLength op ∧ i.place = .stream := by
  cases op with
  | rgb =>
    match rest, h with
    | _ :: _ :: _ :: _, _ => exact ⟨_, rfl, rfl, rfl⟩
  | rgba =>
    match rest, h with
    | _ :: _ :: _ :: _ :: _, _ => exact ⟨_, rfl, rfl, rfl⟩
  | luma =>
    match rest, h with
    | _ :: _, _ => exact ⟨_, rfl, rfl, rfl⟩
  | index | diff | run => exact ⟨_, rfl, rfl, rfl⟩

/-- With a byte too few after the tag, no opcode decodes (R54, R91). -/
theorem decodeOperands_exhausted (tag : Byte) {rest : List Byte} {op : Opcode}
    (h : rest.length + 1 < opcodeLength op) : decodeOperands tag rest op = .error .exhausted := by
  cases op with
  | rgb =>
    match rest, h with
    | [], _ | [_], _ | [_, _], _ => rfl
  | rgba =>
    match rest, h with
    | [], _ | [_], _ | [_, _], _ | [_, _, _], _ => rfl
  | luma =>
    match rest, h with
    | [], _ => rfl
  | index | diff | run => simp [opcodeLength] at h

/-! What decodes at each place. -/

/-- A tag and its operand bytes never decode to a HEADER (R80, R84). -/
theorem decodeOpcode_place {bytes rest : List Byte} {i : Instr} (h : decodeOpcode bytes = .ok (i, rest)) :
    i.place = .stream := by
  cases bytes with
  | nil => nomatch h
  | cons tag operands =>
    rw [decodeOpcode] at h
    rcases Nat.lt_or_ge (operands.length + 1) (opcodeLength (dispatch tag)) with hshort | henough
    · rw [decodeOperands_exhausted tag hshort] at h
      nomatch h
    · obtain ⟨j, hj, -, hplace⟩ := decodeOperands_ok tag henough
      cases hj.symm.trans h
      exact hplace

/-- The bytes at the start of the stream decode to nothing but a HEADER (R80, R84). -/
theorem decodeHeader_isHeader {bytes rest : List Byte} {i : Instr} (h : decodeHeader bytes = .ok (i, rest)) :
    ∃ m w h c cs, i = .header m w h c cs := by
  unfold decodeHeader at h
  split at h
  · cases h
    exact ⟨_, _, _, _, _, rfl⟩
  · nomatch h
  · nomatch h

/-- Settles O9: the length is read off the dispatch, and the operand bytes are only counted. -/
theorem opcodeLengthFromFirstByte : Obligations.OpcodeLengthFromFirstByte :=
  fun tag _ => ⟨opcodeLength_dispatch tag, decodeOperands_ok tag, decodeOperands_exhausted tag⟩

/-- Settles O8: an opcode's bytes are those of its range, which the mask and match of its row describe too. -/
theorem firstByteSelectsOneOpcode : Obligations.FirstByteSelectsOneOpcode := by
  refine ⟨fun tag => ?_, rfl, rfl, rfl, rfl, rfl, rfl,
    count_dispatch .rgb, count_dispatch .rgba, count_dispatch .index, count_dispatch .diff, count_dispatch .luma,
    count_dispatch .run, fun _ _ _ => decodeHeader_isHeader, fun _ _ _ _ _ _ _ h => nomatch decodeOpcode_place h⟩
  have hlt := tag.isLt
  refine ⟨?_, ?_, ?_, ?_, ?_, dispatch_eq_iff tag .diff, ?_, dispatch_eq_iff tag .luma, ?_, dispatch_eq_iff tag .run⟩ <;>
    simp only [dispatch_eq_iff, Opcode.tagRange, ne_eq, ← BitVec.toNat_inj, tag_and_mask_toNat, BitVec.reduceToNat] <;>
    omega

end Sys2Proof
end

section
/-! PROOFS. 41_loop_dispatch_commit.md: the hash of a pixel and the slot a commit writes (R135, R136). -/

namespace Sys2Proof.Machine

/-- The hash is the exact weighted sum reduced modulo 64 (R136). -/
theorem pixelHash_val (p : Pixel) :
    (pixelHash p).val = (p.r.toNat * 3 + p.g.toNat * 5 + p.b.toNat * 7 + p.a.toNat * 11) % 64 := rfl

/-- The weighted sum of four bytes is at most 255 * (3 + 5 + 7 + 11) (R136). -/
theorem hashSum_le (p : Pixel) : p.r.toNat * 3 + p.g.toNat * 5 + p.b.toNat * 7 + p.a.toNat * 11 ≤ 6630 := by
  have hr := p.r.isLt
  have hg := p.g.isLt
  have hb := p.b.isLt
  have ha := p.a.isLt
  omega

/-- An emitted pixel stands in the slot its hash selects (R135). -/
theorem State.emit_ownSlot (p : Pixel) (s : State) : (s.emit p).cache.get (pixelHash p) = p := by
  rw [State.emit_slot, if_pos rfl]

/-- Settles O33: a successful commit is an emission, which writes the pixel at its hash. -/
theorem hashOfAPixel : Obligations.HashOfAPixel := by
  refine ⟨fun p => ⟨pixelHash_val p, hashSum_le p⟩, fun p s t h => ?_⟩
  obtain ⟨rfl, -⟩ := commit_inv h
  exact State.emit_ownSlot p s

end Sys2Proof.Machine
end

section
/-! PROOFS. 44_delta.md: the component arithmetic of DIFF and LUMA (R172). -/

namespace Sys2Proof.Machine

/-- Reducing the exact sum is what an 8-bit two's-complement adder does (R172). -/
theorem addDelta_eq_add (c : Byte) (d : Int) : addDelta c d = c + BitVec.ofInt 8 d := by
  rw [addDelta, BitVec.ofInt_add, BitVec.ofInt_natCast, BitVec.ofNat_toNat, BitVec.setWidth_eq]

/-- The new component is the value in 0..255 congruent to the exact sum (R9, R172). -/
theorem addDelta_toNat (c : Byte) (d : Int) : ((addDelta c d).toNat : Int) = ((c.toNat : Int) + d) % 256 := by
  rw [addDelta, BitVec.toNat_ofInt]
  exact Int.toNat_of_nonneg (Int.emod_nonneg _ (by decide))

/-- Deltas may be summed first or applied one after the other (R172). -/
theorem addDelta_add (c : Byte) (d e : Int) : addDelta c (d + e) = addDelta (addDelta c d) e := by
  simp only [addDelta_eq_add, BitVec.ofInt_add, BitVec.add_assoc]

/-- Settles O35: the component arithmetic is addition in the ring of bytes. -/
theorem componentArithmeticWraps : Obligations.ComponentArithmeticWraps :=
  ⟨addDelta_toNat, addDelta_add, addDelta_eq_add, by decide, by decide⟩

end Sys2Proof.Machine
end

section
/-! PROOFS. 30_encoding.md: the decoder and the encoder are inverse to each other (R81, R82, R85 to R89). -/

namespace Sys2Proof

/-! A field of a byte or of a word, as a number. -/

/-- A field is the quotient and remainder that its position and width give (R7). -/
theorem extractLsb'_toNat_eq_div_mod {w : Nat} (x : BitVec w) (start n : Nat) :
    (x.extractLsb' start n).toNat = x.toNat / 2 ^ start % 2 ^ n := by
  rw [BitVec.extractLsb'_toNat, Nat.shiftRight_eq_div_pow]

/-- Splitting a 32-bit field into bytes and joining them gives it back (R56). -/
theorem be32_extractLsb' (w : BitVec 32) :
    be32 (w.extractLsb' 24 8) (w.extractLsb' 16 8) (w.extractLsb' 8 8) (w.extractLsb' 0 8) = w := by
  have hw := w.isLt
  apply BitVec.eq_of_toNat_eq
  simp only [Machine.be32_toNat, extractLsb'_toNat_eq_div_mod]
  omega

/-- Joining four bytes and splitting the word gives them back (R56). -/
theorem be32Bytes_be32 (b0 b1 b2 b3 : Byte) : be32Bytes (be32 b0 b1 b2 b3) = [b0, b1, b2, b3] := by
  have h0 := b0.isLt
  have h1 := b1.isLt
  have h2 := b2.isLt
  have h3 := b3.isLt
  simp only [be32Bytes, List.cons.injEq, ← BitVec.toNat_inj, Machine.be32_toNat, extractLsb'_toNat_eq_div_mod, and_true]
  omega

/-- A byte in the range of an opcode selects it, and its operands are decoded by that opcode's format (R83, R84). -/
theorem decodeOpcode_ofNat {n : Nat} {op : Opcode} (h : op.tagRange.1 ≤ n ∧ n ≤ op.tagRange.2) (operands : List Byte) :
    decodeOpcode (BitVec.ofNat 8 n :: operands) = decodeOperands (BitVec.ofNat 8 n) operands op := by
  have htop : op.tagRange.2 < 256 := by cases op <;> decide
  have hop : dispatch (BitVec.ofNat 8 n) = op := by
    rwa [dispatch_eq_iff, BitVec.toNat_ofNat, Nat.mod_eq_of_lt (h.2.trans_lt htop)]
  rw [decodeOpcode, hop]

/-- Settles O6: every field stands in the encoding where the decoder looks for it, behind its opcode's tag. -/
theorem decodeOfEncodeIsInstr : Obligations.DecodeOfEncodeIsInstr := by
  intro i rest hrun
  cases i with
  | header magic width height channels colorspace =>
    simp [decode, Instr.place, encode, be32Bytes, decodeHeader, be32_extractLsb']
  | rgb r g b => rfl
  | rgba r g b a => rfl
  | index idx =>
    have hlt := idx.isLt
    refine (decodeOpcode_ofNat (op := .index) (by simp only [Opcode.tagRange]; omega) rest).trans ?_
    simp only [decodeOperands, Except.ok.injEq, Prod.mk.injEq, Instr.index.injEq, ← BitVec.toNat_inj,
      extractLsb'_toNat_eq_div_mod, BitVec.toNat_ofNat, and_true]
    omega
  | diff fr fg fb =>
    have hr := fr.isLt
    have hg := fg.isLt
    have hb := fb.isLt
    refine (decodeOpcode_ofNat (op := .diff) (by simp only [Opcode.tagRange]; omega) rest).trans ?_
    simp only [decodeOperands, Except.ok.injEq, Prod.mk.injEq, Instr.diff.injEq, ← BitVec.toNat_inj,
      extractLsb'_toNat_eq_div_mod, BitVec.toNat_ofNat, and_true]
    omega
  | luma fdg frg fbg =>
    have hg := fdg.isLt
    have hr := frg.isLt
    have hb := fbg.isLt
    refine (decodeOpcode_ofNat (op := .luma) (by simp only [Opcode.tagRange]; omega) (_ :: rest)).trans ?_
    simp only [decodeOperands, Except.ok.injEq, Prod.mk.injEq, Instr.luma.injEq, ← BitVec.toNat_inj,
      extractLsb'_toNat_eq_div_mod, BitVec.toNat_ofNat, and_true]
    omega
  | run frun =>
    have hlt := hrun frun rfl
    refine (decodeOpcode_ofNat (op := .run) (by simp only [Opcode.tagRange]; omega) rest).trans ?_
    simp only [decodeOperands, Except.ok.injEq, Prod.mk.injEq, Instr.run.injEq, ← BitVec.toNat_inj,
      extractLsb'_toNat_eq_div_mod, BitVec.toNat_ofNat, and_true]
    omega

/-! What a decoded instruction was encoded as. -/

/-- Every instruction's encoding is as long as its format says (R81, R82, R91). -/
theorem encode_length (i : Instr) : (encode i).length = i.length := by cases i <;> rfl

/-- A decoded HEADER encodes to the bytes it came from (R81). -/
theorem encode_of_decodeHeader {bytes rest : List Byte} {i : Instr} (h : decodeHeader bytes = .ok (i, rest)) :
    encode i ++ rest = bytes := by
  unfold decodeHeader at h
  split at h
  · cases h
    simp [encode, be32Bytes_be32]
  · nomatch h
  · nomatch h

/-- Bytes whose first is given by its value. -/
theorem cons_eq_of_toNat {b c : Byte} (h : b.toNat = c.toNat) (rest : List Byte) : b :: rest = c :: rest := by
  rw [BitVec.eq_of_toNat_eq h]

/-- A decoded opcode encodes to its tag and operand bytes, and a RUN field is at most 61 (R82, R85 to R89). -/
theorem encode_of_decodeOperands {tag : Byte} {operands rest : List Byte} {i : Instr}
    (h : decodeOperands tag operands (dispatch tag) = .ok (i, rest)) :
    encode i ++ rest = tag :: operands ∧ ∀ frun, i = .run frun → frun.toNat ≤ 61 := by
  obtain ⟨hlo, hhi⟩ := (dispatch_eq_iff tag (dispatch tag)).mp rfl
  cases hop : dispatch tag <;> rw [hop] at h hlo hhi <;> simp only [Opcode.tagRange] at hlo hhi
  case rgb =>
    match operands, h with
    | _ :: _ :: _ :: _, rfl =>
      refine ⟨cons_eq_of_toNat ?_ _, nofun⟩
      exact le_antisymm hlo hhi
  case rgba =>
    match operands, h with
    | _ :: _ :: _ :: _ :: _, rfl =>
      refine ⟨cons_eq_of_toNat ?_ _, nofun⟩
      exact le_antisymm hlo hhi
  case index =>
    cases h
    refine ⟨cons_eq_of_toNat ?_ _, nofun⟩
    simp only [BitVec.toNat_ofNat, extractLsb'_toNat_eq_div_mod]
    omega
  case diff =>
    cases h
    refine ⟨cons_eq_of_toNat ?_ _, nofun⟩
    simp only [BitVec.toNat_ofNat, extractLsb'_toNat_eq_div_mod]
    omega
  case luma =>
    match operands, h with
    | byte :: rest', rfl =>
      have hlt := byte.isLt
      refine ⟨?_, nofun⟩
      simp only [encode, List.cons_append, List.nil_append, List.cons.injEq, ← BitVec.toNat_inj, and_true,
        BitVec.toNat_ofNat, extractLsb'_toNat_eq_div_mod]
      omega
  case run =>
    cases h
    refine ⟨cons_eq_of_toNat ?_ _, ?_⟩
    · simp only [BitVec.toNat_ofNat, extractLsb'_toNat_eq_div_mod]
      omega
    · rintro _ ⟨⟩
      rw [extractLsb'_toNat_eq_div_mod]
      omega

/-- Settles O7: position by position, a decoded field is the part of the byte that the encoder puts there. -/
theorem encodeOfDecodeIsBytes : Obligations.EncodeOfDecodeIsBytes := by
  intro place bytes rest i h
  cases place with
  | start =>
    obtain ⟨_, _, _, _, _, rfl⟩ := decodeHeader_isHeader h
    exact ⟨encode_of_decodeHeader h, rfl, rfl, nofun⟩
  | stream =>
    have hplace := decodeOpcode_place h
    match bytes, h with
    | tag :: operands, h =>
      obtain ⟨hbytes, hrun⟩ := encode_of_decodeOperands h
      exact ⟨hbytes, hplace, encode_length i, hrun⟩

/-- Settles O10: each word is decoded by the rules of its format. -/
theorem wordsOfEachFormatDecode : Obligations.WordsOfEachFormatDecode := by
  unfold Obligations.WordsOfEachFormatDecode
  decide

/-! What the decoder reads. -/

theorem Instr.length_pos (i : Instr) : 0 < i.length := by cases i <;> exact Nat.succ_pos _

/-- A decoded instruction's bytes are all there (R54, R91). -/
theorem decode_length_le {place : Place} {bytes rest : List Byte} {i : Instr} (h : decode place bytes = .ok (i, rest)) :
    i.length ≤ bytes.length := by
  obtain ⟨hbytes, -, hlength, -⟩ := encodeOfDecodeIsBytes place bytes rest i h
  rw [← hbytes, List.length_append, hlength]
  exact Nat.le_add_right _ _

/-- The decoder reads no byte after the instruction's last (R64, R91). -/
theorem decode_of_take_eq {place : Place} {bytes bytes' rest : List Byte} {i : Instr}
    (h : decode place bytes = .ok (i, rest)) (htake : bytes'.take i.length = bytes.take i.length) :
    decode place bytes' = .ok (i, bytes'.drop i.length) := by
  obtain ⟨hbytes, rfl, hlength, hrun⟩ := encodeOfDecodeIsBytes place bytes rest i h
  have hcode : bytes'.take i.length = encode i := by rw [htake, ← hbytes, List.take_left' hlength]
  rw [← List.take_append_drop i.length bytes', hcode, decodeOfEncodeIsInstr i _ hrun]
  simp [hlength]

end Sys2Proof
end

section
/-! PROOFS. 41_loop_dispatch_commit.md: what one step does, said once: fetching (R54), what an opcode emits (R135, R141), and
every way a step can answer (R110, R132, R197). -/

namespace Sys2Proof.Machine

/-! Fetching an instruction. -/

theorem fetchInstr_ok_iff {place : Place} {s : State} {i : Instr} :
    fetchInstr place s = .ok i ↔ ∃ rest, decode place s.remaining = .ok (i, rest) := by
  unfold fetchInstr
  split <;> simp [*]

/-- A fetched instruction is one of the place it was fetched at (R80, R84). -/
theorem place_of_fetchInstr {place : Place} {s : State} {i : Instr} (h : fetchInstr place s = .ok i) :
    i.place = place := by
  obtain ⟨rest, hd⟩ := fetchInstr_ok_iff.mp h
  obtain ⟨-, hplace, -⟩ := encodeOfDecodeIsBytes place s.remaining rest i hd
  exact hplace

/-- A fetched instruction's bytes are all in IN (R54). -/
theorem fetchable_of_fetchInstr {place : Place} {s : State} {i : Instr} (h : fetchInstr place s = .ok i) :
    Fetchable i.length s := by
  obtain ⟨rest, hd⟩ := fetchInstr_ok_iff.mp h
  have hle := decode_length_le hd
  have hpos := i.length_pos
  rw [State.remaining, List.length_drop] at hle
  unfold Fetchable
  omega

/-- What is fetched depends on IN and IN_POS alone. -/
theorem fetchInstr_congr {place : Place} {s t : State} (hin : t.input = s.input) (hpos : t.inPos = s.inPos) :
    fetchInstr place t = fetchInstr place s := by
  simp only [fetchInstr, State.remaining, hin, hpos]

/-- Fewer bytes are left than the first of them needs, when no opcode is fetched (R91). -/
theorem fetchInstr_stream_error {s : State} {e : Reject} (h : fetchInstr .stream s = .error e) :
    e = .exhausted ∧ ∀ tag rest, s.remaining = tag :: rest → rest.length + 1 < opcodeLength (dispatch tag) := by
  cases hrem : s.remaining with
  | nil =>
    simp only [fetchInstr, hrem, decode, decodeOpcode, Except.error.injEq] at h
    exact ⟨h.symm, nofun⟩
  | cons tag rest =>
    obtain ⟨-, henough, hshort⟩ := opcodeLengthFromFirstByte tag rest
    by_cases hlen : opcodeLength (dispatch tag) ≤ rest.length + 1
    · obtain ⟨i, hi, -⟩ := henough hlen
      simp [fetchInstr, hrem, decode, hi] at h
    · have hlt : rest.length + 1 < opcodeLength (dispatch tag) := by omega
      simp only [fetchInstr, hrem, decode, hshort hlt, Except.error.injEq] at h
      refine ⟨h.symm, ?_⟩
      rintro _ _ ⟨⟩
      exact hlt

/-! Emitting a list of pixels. -/

/-- There is room for `n` pixels, or there are none. -/
abbrev Emittable (n : Nat) (s : State) : Prop := n = 0 ∨ HasRoom n s

/-- The commits of a list of pixels: all of them, or an overrun (R135, R138). -/
def State.emitIfRoom (ps : List Pixel) (s : State) : Except Cause State :=
  if Emittable ps.length s then .ok (s.emitAll ps) else .error .overrun

theorem commit_eq_emitIfRoom (p : Pixel) (s : State) : commit p s = s.emitIfRoom [p] := by
  by_cases h : s.outPos + spp s.hdr ≤ total s.hdr
  · simp [commit_ok h, State.emitIfRoom, h]
  · simp [commit_error h, State.emitIfRoom, h]

theorem commitRun_eq_emitIfRoom (n : Nat) (s : State) : commitRun n s = s.emitIfRoom (List.replicate n s.px) := by
  simp only [commitRun_eq, State.emitIfRoom, Emittable, HasRoom, List.length_replicate]

@[simp] theorem State.emitAll_cfg (ps : List Pixel) (s : State) : (s.emitAll ps).cfg = s.cfg := by
  obtain ⟨h, -⟩ := State.emitAll_frame ps s
  exact h

@[simp] theorem State.emitAll_input (ps : List Pixel) (s : State) : (s.emitAll ps).input = s.input := by
  obtain ⟨-, h, -⟩ := State.emitAll_frame ps s
  exact h

@[simp] theorem State.emitAll_hasBeenReset (ps : List Pixel) (s : State) :
    (s.emitAll ps).hasBeenReset = s.hasBeenReset := by
  obtain ⟨-, -, h, -⟩ := State.emitAll_frame ps s
  exact h

@[simp] theorem State.emitAll_phase (ps : List Pixel) (s : State) : (s.emitAll ps).phase = s.phase := by
  obtain ⟨-, -, -, h, -⟩ := State.emitAll_frame ps s
  exact h

@[simp] theorem State.emitAll_cause (ps : List Pixel) (s : State) : (s.emitAll ps).cause = s.cause := by
  obtain ⟨-, -, -, -, h, -⟩ := State.emitAll_frame ps s
  exact h

@[simp] theorem State.emitAll_hdr (ps : List Pixel) (s : State) : (s.emitAll ps).hdr = s.hdr := by
  obtain ⟨-, -, -, -, -, h, -⟩ := State.emitAll_frame ps s
  exact h

@[simp] theorem State.emitAll_inPos (ps : List Pixel) (s : State) : (s.emitAll ps).inPos = s.inPos := by
  obtain ⟨-, -, -, -, -, -, h, -⟩ := State.emitAll_frame ps s
  exact h

@[simp] theorem State.emitAll_freeCount (ps : List Pixel) (s : State) : (s.emitAll ps).freeCount = s.freeCount := by
  obtain ⟨-, -, -, -, -, -, -, h, -⟩ := State.emitAll_frame ps s
  exact h

@[simp] theorem State.emitAll_outPos (ps : List Pixel) (s : State) :
    (s.emitAll ps).outPos = s.outPos + ps.length * spp s.hdr := by
  obtain ⟨-, -, -, -, -, -, -, -, h⟩ := State.emitAll_frame ps s
  exact h

/-- PX holds the last pixel emitted (R20, R21). -/
@[simp] theorem State.emitAll_px (ps : List Pixel) (s : State) : (s.emitAll ps).px = ps.getLastD s.px := by
  induction ps generalizing s with
  | nil => rfl
  | cons p ps ih => rw [State.emitAll_cons, ih, State.emit_px, List.getLastD_cons]

/-- A slot holds the last pixel emitted of its hash, or what it held before (R25, R240). -/
theorem State.emitAll_slot (ps : List Pixel) (s : State) (j : Fin 64) :
    (s.emitAll ps).cache.get j = (ps.reverse.find? fun p => pixelHash p == j).getD (s.cache.get j) := by
  induction ps generalizing s with
  | nil => rfl
  | cons p ps ih =>
    rw [State.emitAll_cons, ih, State.emit_slot, List.reverse_cons, List.find?_append]
    cases ps.reverse.find? fun q => pixelHash q == j with
    | some q => rfl
    | none =>
      by_cases h : pixelHash p = j
      · simp [h]
      · simp [h, Ne.symm h]

/-- When exactly the samples below OUT_POS are written, emitting appends the pixels' samples (R58, R66). -/
theorem State.emitAll_out (ps : List Pixel) {s : State} (h : s.out.map Prod.fst = List.range s.outPos) :
    (s.emitAll ps).out.map Prod.fst = List.range (s.emitAll ps).outPos ∧
      (s.emitAll ps).out.map Prod.snd = s.out.map Prod.snd ++ ps.flatMap (samples s.hdr) := by
  induction ps generalizing s with
  | nil => simpa using h
  | cons p ps ih =>
    obtain ⟨hindices, hsamples⟩ := Memory.writeList_append h (samples s.hdr p)
    rw [samples_length] at hindices
    obtain ⟨h1, h2⟩ := ih (s := s.emit p) hindices
    refine ⟨h1, ?_⟩
    rw [State.emitAll_cons, h2, State.emit_out, hsamples, State.emit_hdr, List.flatMap_cons, List.append_assoc]

/-- Emitting keeps OUT in canonical form. -/
theorem State.emitAll_out_wf (ps : List Pixel) {s : State} (h : Memory.wf s.out = true) :
    Memory.wf (s.emitAll ps).out = true := by
  induction ps generalizing s with
  | nil => exact h
  | cons p ps ih => exact ih (State.emit_out_wf p h)

/-! What an opcode does. -/

/-- How many pixels an instruction emits under each RUN_BIAS: it depends on no pixel (R139). -/
def pixelCount (bias : RunBias) : Instr → Nat
  | .header _ _ _ _ _ => 0
  | .run frun => runLength bias frun
  | _ => 1

@[simp] theorem pixelsOf_length (i : Instr) (s : State) :
    (pixelsOf i s).length = pixelCount s.cfg.runBias i := by
  cases i <;> simp [pixelsOf, pixelCount]

/-- The state after an opcode that raises nothing (R132). -/
def State.afterOpcode (i : Instr) (s : State) : State :=
  ((s.advanceIn i.length).emitAll (pixelsOf i s)).endOpcode

/-- Every opcode is one fetch of its bytes, then the commits of its pixels, then the loop test (R132, R198). -/
theorem exec_eq_opcodeStep {i : Instr} (hi : i.place = .stream) (s : State) :
    exec i s = opcodeStep i.length (fun t => t.emitIfRoom (pixelsOf i t)) s := by
  cases i with
  | header => nomatch hi
  | run frun => simp only [exec, execRun, commitRun_eq_emitIfRoom]; rfl
  | rgb | rgba | index | diff | luma =>
    simp only [exec, execRgb, execRgba, execIndex, execDiff, execLuma, commit_eq_emitIfRoom]; rfl

/-- What an instruction emits does not depend on IN_POS. -/
@[simp] theorem pixelsOf_advanceIn (i : Instr) (n : Nat) (s : State) : pixelsOf i (s.advanceIn n) = pixelsOf i s := by
  cases i <;> rfl

theorem emitIfRoom_advanceIn (i : Instr) (s : State) :
    (s.advanceIn i.length).emitIfRoom (pixelsOf i s) =
      if Emittable (pixelCount s.cfg.runBias i) s then .ok ((s.advanceIn i.length).emitAll (pixelsOf i s))
      else .error .overrun := by
  simp only [State.emitIfRoom, pixelsOf_length, Emittable, HasRoom, State.advanceIn_outPos, State.advanceIn_hdr]

/-- An opcode whose bytes are not all in IN raises TruncationError (R54, R198). -/
theorem exec_truncated {i : Instr} {s : State} (hi : i.place = .stream) (hp : s.phase = .pixels)
    (hf : ¬ Fetchable i.length s) : exec i s = .next (s.raise .truncation) := by
  rw [exec_eq_opcodeStep hi]
  exact opcodeStep_truncated (i.length_pos) hp hf

/-- An opcode whose bytes are there and whose pixels fit completes (R132). -/
theorem exec_next {i : Instr} {s : State} (hi : i.place = .stream) (hp : s.phase = .pixels)
    (hf : Fetchable i.length s) (hroom : Emittable (pixelCount s.cfg.runBias i) s) :
    exec i s = .next (s.afterOpcode i) := by
  rw [exec_eq_opcodeStep hi]
  exact opcodeStep_next hp hf (by rw [pixelsOf_advanceIn, emitIfRoom_advanceIn, if_pos hroom])

/-- An opcode whose bytes are there and whose pixels do not all fit raises OverrunError (R138, R183). -/
theorem exec_overrun {i : Instr} {s : State} (hi : i.place = .stream) (hp : s.phase = .pixels)
    (hf : Fetchable i.length s) (hroom : ¬ Emittable (pixelCount s.cfg.runBias i) s) :
    exec i s = .next (s.raise .overrun) := by
  rw [exec_eq_opcodeStep hi]
  exact opcodeStep_raises hp hf (by rw [pixelsOf_advanceIn, emitIfRoom_advanceIn, if_neg hroom])

@[simp] theorem State.afterOpcode_cfg (i : Instr) (s : State) : (s.afterOpcode i).cfg = s.cfg := by
  simp [State.afterOpcode]
@[simp] theorem State.afterOpcode_input (i : Instr) (s : State) : (s.afterOpcode i).input = s.input := by
  simp [State.afterOpcode]
@[simp] theorem State.afterOpcode_hasBeenReset (i : Instr) (s : State) :
    (s.afterOpcode i).hasBeenReset = s.hasBeenReset := by simp [State.afterOpcode]
@[simp] theorem State.afterOpcode_cause (i : Instr) (s : State) : (s.afterOpcode i).cause = s.cause := by
  simp [State.afterOpcode]
@[simp] theorem State.afterOpcode_hdr (i : Instr) (s : State) : (s.afterOpcode i).hdr = s.hdr := by
  simp [State.afterOpcode]
@[simp] theorem State.afterOpcode_inPos (i : Instr) (s : State) : (s.afterOpcode i).inPos = s.inPos + i.length := by
  simp [State.afterOpcode]
@[simp] theorem State.afterOpcode_freeCount (i : Instr) (s : State) : (s.afterOpcode i).freeCount = s.freeCount := by
  simp [State.afterOpcode]
@[simp] theorem State.afterOpcode_outPos (i : Instr) (s : State) :
    (s.afterOpcode i).outPos = s.outPos + pixelCount s.cfg.runBias i * spp s.hdr := by simp [State.afterOpcode]
@[simp] theorem State.afterOpcode_px (i : Instr) (s : State) :
    (s.afterOpcode i).px = (pixelsOf i s).getLastD s.px := by simp [State.afterOpcode]

/-- PHASE after an opcode (R131, R132). -/
theorem State.afterOpcode_phase {i : Instr} {s : State} (hp : s.phase = .pixels) :
    (s.afterOpcode i).phase = if (s.afterOpcode i).outPos = total s.hdr then .done else .pixels := by
  simp [State.afterOpcode, phaseAfterOpcode, hp]

/-- A completed opcode leaves the parameters, IN, CAUSE and the header registers alone (R28, R39, R51). -/
theorem untouched_afterOpcode (i : Instr) (s : State) : Untouched s (s.afterOpcode i) where
  cfg := State.afterOpcode_cfg i s
  input := State.afterOpcode_input i s
  hasBeenReset := State.afterOpcode_hasBeenReset i s
  cause := State.afterOpcode_cause i s
  hdr := State.afterOpcode_hdr i s
  freeCount := State.afterOpcode_freeCount i s

/-! What HEADER does. -/

/-- The state after a header step that raises nothing (R110). -/
def State.afterHeader (h : Header) (s : State) : State := ((s.advanceIn 14).setHeader h).endHeader

@[simp] theorem State.afterHeader_cfg (h : Header) (s : State) : (s.afterHeader h).cfg = s.cfg := rfl
@[simp] theorem State.afterHeader_input (h : Header) (s : State) : (s.afterHeader h).input = s.input := rfl
@[simp] theorem State.afterHeader_hasBeenReset (h : Header) (s : State) :
    (s.afterHeader h).hasBeenReset = s.hasBeenReset := rfl
@[simp] theorem State.afterHeader_phase (h : Header) (s : State) :
    (s.afterHeader h).phase = phaseAfterHeader (total h) := rfl
@[simp] theorem State.afterHeader_cause (h : Header) (s : State) : (s.afterHeader h).cause = s.cause := rfl
@[simp] theorem State.afterHeader_hdr (h : Header) (s : State) : (s.afterHeader h).hdr = h := rfl
@[simp] theorem State.afterHeader_inPos (h : Header) (s : State) : (s.afterHeader h).inPos = s.inPos + 14 := rfl
@[simp] theorem State.afterHeader_outPos (h : Header) (s : State) : (s.afterHeader h).outPos = s.outPos := rfl
@[simp] theorem State.afterHeader_px (h : Header) (s : State) : (s.afterHeader h).px = s.px := rfl
@[simp] theorem State.afterHeader_cache (h : Header) (s : State) : (s.afterHeader h).cache = s.cache := rfl
@[simp] theorem State.afterHeader_out (h : Header) (s : State) : (s.afterHeader h).out = s.out := rfl
@[simp] theorem State.afterHeader_freeCount (h : Header) (s : State) : (s.afterHeader h).freeCount = s.freeCount := rfl

/-- HEADER with all its bytes in IN: its checks in order, and its writes (R110, R111, R117). -/
theorem exec_header_eq {s : State} (hp : s.phase = .header) (hf : Fetchable 14 s) (magic width height : BitVec 32)
    (channels colorspace : Byte) :
    exec (.header magic width height channels colorspace) s =
      if magic = magicTag then
        if colorspaceOk colorspace then
          if fitsCapacity s.cfg.outCapacity (total ⟨width, height, channels, colorspace⟩) then
            .next (s.afterHeader ⟨width, height, channels, colorspace⟩)
          else .refused .exceedsOutCapacity
        else .next (s.raise .formatColorspace)
      else .next (s.raise .formatMagic) := by
  have hmagic : fetchBytes 4 s = .ok (s.advanceIn 4) := fetchBytes_ok (by omega)
  have hfields : fetchBytes 10 (s.advanceIn 4) = .ok (s.advanceIn 14) :=
    fetchBytes_ok (by rw [State.advanceIn_inPos, State.advanceIn_input]; omega)
  simp only [exec, execHeader, hp, if_true, headerChecks, hmagic, hfields]
  by_cases hm : magic = magicTag
  · by_cases hc : colorspaceOk colorspace = true <;> simp only [hm, hc, if_true] <;> rfl
  · simp only [hm, if_false]

/-! The step. -/

theorem step_header {s : State} (hr : s.hasBeenReset = true) (hp : s.phase = .header) : step s = stepAt .start s := by
  simp [step, hr, hp]

theorem step_pixels {s : State} (hr : s.hasBeenReset = true) (hp : s.phase = .pixels) : step s = stepAt .stream s := by
  simp [step, hr, hp]

theorem stepAt_ok {place : Place} {s : State} {i : Instr} (h : fetchInstr place s = .ok i) :
    stepAt place s = exec i s := by
  simp [stepAt, h]

theorem stepAt_error {place : Place} {s : State} {e : Reject} (h : fetchInstr place s = .error e) :
    stepAt place s = .next (s.raise (rejectCause e)) := by
  simp [stepAt, h]

/-- Every way a step can answer with a next state: it parses a header, it completes an opcode, or it raises. -/
inductive StepTo (s : State) : State → Prop
  | header {h : Header} (phase : s.phase = .header)
    (fetched : fetchInstr .start s = .ok (.header magicTag h.width h.height h.channels h.colorspace))
    (colorspace : h.colorspace = 0 ∨ h.colorspace = 1)
    (capacity : fitsCapacity s.cfg.outCapacity (total h) = true) : StepTo s (s.afterHeader h)
  | opcode {i : Instr} (phase : s.phase = .pixels) (fetched : fetchInstr .stream s = .ok i)
    (room : Emittable (pixelCount s.cfg.runBias i) s) : StepTo s (s.afterOpcode i)
  | raised {c : Cause} (cause : c ≠ .none) (inHeader : s.phase = .header → c ≠ .overrun) : StepTo s (s.raise c)

theorem rejectCause_ne (e : Reject) : rejectCause e ≠ .none ∧ rejectCause e ≠ .overrun := by cases e <;> decide

/-- The ways a header step can answer with a next state (R110, R111). -/
theorem stepTo_of_stepAt_start {s t : State} (hp : s.phase = .header) (h : stepAt .start s = .next t) : StepTo s t := by
  cases hfetch : fetchInstr .start s with
  | error e =>
    cases (stepAt_error hfetch).symm.trans h
    exact .raised (rejectCause_ne e).1 fun _ => (rejectCause_ne e).2
  | ok i =>
    obtain ⟨_, hd⟩ := fetchInstr_ok_iff.mp hfetch
    obtain ⟨m, w, ht, c, cs, rfl⟩ := decodeHeader_isHeader hd
    rw [stepAt_ok hfetch, exec_header_eq hp (fetchable_of_fetchInstr hfetch)] at h
    split_ifs at h with hm hc hcap
    · cases h
      subst hm
      exact .header hp hfetch ((colorspaceOk_iff cs).mp hc) hcap
    · cases h
      exact .raised nofun fun _ => nofun
    · cases h
      exact .raised nofun fun _ => nofun

/-- The ways an opcode step can answer; it always has a next state (R132). -/
theorem stepTo_of_stepAt_stream {s : State} (hp : s.phase = .pixels) : ∃ t, stepAt .stream s = .next t ∧ StepTo s t := by
  have hnot : s.phase ≠ .header := by simp [hp]
  cases hfetch : fetchInstr .stream s with
  | error e => exact ⟨_, stepAt_error hfetch, .raised (rejectCause_ne e).1 fun h => absurd h hnot⟩
  | ok i =>
    have hplace := place_of_fetchInstr hfetch
    have hbytes := fetchable_of_fetchInstr hfetch
    by_cases hroom : Emittable (pixelCount s.cfg.runBias i) s
    · exact ⟨_, (stepAt_ok hfetch).trans (exec_next hplace hp hbytes hroom), .opcode hp hfetch hroom⟩
    · exact ⟨_, (stepAt_ok hfetch).trans (exec_overrun hplace hp hbytes hroom), .raised nofun fun h => absurd h hnot⟩

/-- A step answers with a next state only after reset, and only in these ways (R132, R133, R201, R231). -/
theorem step_cases {s t : State} (h : step s = .next t) : s.hasBeenReset = true ∧ StepTo s t := by
  have hr : s.hasBeenReset = true := by
    by_contra hr
    simp [step, hr] at h
  refine ⟨hr, ?_⟩
  cases hp : s.phase with
  | header => exact stepTo_of_stepAt_start hp ((step_header hr hp).symm.trans h)
  | pixels =>
    obtain ⟨u, hu, hto⟩ := stepTo_of_stepAt_stream hp
    cases hu.symm.trans ((step_pixels hr hp).symm.trans h)
    exact hto
  | done => simp [step, hr, hp] at h
  | error => simp [step, hr, hp] at h

end Sys2Proof.Machine
end

section
/-! PROOFS. 10_state.md and 70_reset_and_hazards.md: reset, the invariant, and what every step keeps (R40 to R42, R51). -/

namespace Sys2Proof.Machine

/-! Reset. -/

theorem get_replicate_zeroPixel (i : Fin 64) : (Vector.replicate 64 zeroPixel).get i = zeroPixel := by
  simp [Vector.get_eq_getElem]

/-- Settles O1: both states are launches, whose fields the rule states one by one. -/
theorem resetLeavesTheStatedValues : Obligations.ResetLeavesTheStatedValues := by
  intro s input t ht
  obtain ⟨cfg, n, rfl⟩ : ∃ cfg n, t = State.launch cfg input n := by
    obtain rfl | ⟨rfl, rfl⟩ := ht
    · exact ⟨s.cfg, s.freeCount, rfl⟩
    · exact ⟨Config.default, 0, rfl⟩
  refine ⟨rfl, get_replicate_zeroPixel, rfl, rfl, rfl, rfl, rfl, fun _ => rfl, fun reg hphase hcause => ?_⟩
  cases reg with
  | phase => exact absurd rfl hphase
  | cause => exact absurd rfl hcause
  | width | height | channels | colorspace | outPos | inPos => rfl

/-- The invariant holds after a launch (R40, R41, R42). -/
theorem inv_launch (cfg : Config) (input : List Byte) (n : Nat) : Inv (State.launch cfg input n) where
  outCanonical := State.launch_out_wf cfg input n
  outPosWidth := by simp
  causeIffError := by simp
  cacheInv := fun _ i => .inl (get_replicate_zeroPixel i)
  writtenBelowCursor := fun _ => rfl
  inHeader := fun _ => ⟨rfl, rfl, rfl, rfl⟩
  inPixels := nofun
  inDone := nofun

/-- Settles O2: State.reset and every reset are launches. -/
theorem invariantHoldsAfterReset : Obligations.InvariantHoldsAfterReset :=
  ⟨inv_launch Config.default [] 0, fun s input => inv_launch s.cfg input s.freeCount⟩

/-- Settles O4: the step looks at the reset bit, then at PHASE. -/
theorem stepsEnabledByPhase : Obligations.StepsEnabledByPhase := by
  intro s
  refine ⟨fun hr => ?_, fun hr hp => ?_, fun hr hp => ?_, fun _ => ⟨rfl, rfl⟩⟩
  · simp [step, hr]
  · simp [step, hr, hp]
  · simp [step, hr, hp]

/-- Settles O11: a decoded instruction is the fetched one. -/
theorem stepRunsTheDecodedInstruction : Obligations.StepRunsTheDecodedInstruction := by
  intro s i rest hr
  refine ⟨fun hp hd => ?_, fun hp hd => ?_⟩
  · exact (step_header hr hp).trans (stepAt_ok (fetchInstr_ok_iff.mpr ⟨rest, hd⟩))
  · exact (step_pixels hr hp).trans (stepAt_ok (fetchInstr_ok_iff.mpr ⟨rest, hd⟩))

/-! The invariant. -/

/-- Emitting keeps the cache invariant: only whole pixels are written, each at its own hash (R25, R42). -/
theorem cacheInv_emitAll {s : State} (h : CacheInv s.cache) (ps : List Pixel) : CacheInv (s.emitAll ps).cache := by
  intro j
  rw [State.emitAll_slot]
  cases hfind : ps.reverse.find? fun p => pixelHash p == j with
  | none => exact h j
  | some p =>
    have hhash := List.find?_some hfind
    exact .inr (by simpa using hhash)

/-- An error leaves nothing that the invariant constrains but CAUSE and the width of OUT_POS (R197). -/
theorem inv_raise {c : Cause} (hc : c ≠ .none) (s : State) : Inv (s.raise c) where
  outCanonical := State.raise_out_wf c s
  outPosWidth := (Config.freeOutPos s.freeCount).isLt
  causeIffError := by simp [hc]
  cacheInv := fun h => absurd rfl h
  writtenBelowCursor := fun h => absurd rfl h
  inHeader := nofun
  inPixels := nofun
  inDone := nofun

/-- A step boundary behind the loop test meets the invariant when its registers, cursors, cache and OUT do: OUT is full
exactly in DONE (R41, R131). -/
theorem inv_of_loopTest {t : State} (hphase : t.phase = if t.outPos = total t.hdr then .done else .pixels)
    (hcause : t.cause = .none) (hparsed : ParsedInv t) (hle : t.outPos ≤ total t.hdr) (hcache : CacheInv t.cache)
    (hwf : Memory.wf t.out = true) (hwritten : t.out.map Prod.fst = List.range t.outPos) : Inv t := by
  refine ⟨hwf, hle.trans_lt (total_lt _), ?_, fun _ => hcache, fun _ => hwritten, fun hhdr => ?_, fun hpix => ⟨hparsed, ?_⟩,
    fun hdone => ⟨hparsed, ?_⟩⟩
  · rw [hphase, hcause]
    split <;> simp
  · rw [hphase] at hhdr
    split at hhdr <;> nomatch hhdr
  · rw [hphase] at hpix
    split at hpix
    · nomatch hpix
    · omega
  · rw [hphase] at hdone
    split at hdone
    · assumption
    · nomatch hdone

/-- Outside ERROR the invariant has CAUSE at NONE (R34, R41). -/
theorem Inv.cause_eq_none {s : State} (hinv : Inv s) (hp : s.phase ≠ .error) : s.cause = .none :=
  by_contra fun hc => hp (hinv.causeIffError.mpr hc)

/-- A parsed header meets the invariant: OUT is still empty (R116). -/
theorem inv_afterHeader {s : State} (hinv : Inv s) {h : Header} (hp : s.phase = .header) (hbytes : Fetchable 14 s)
    (hcs : h.colorspace = 0 ∨ h.colorspace = 1) (hcap : fitsCapacity s.cfg.outCapacity (total h) = true) :
    Inv (s.afterHeader h) := by
  have herr : s.phase ≠ .error := by simp [hp]
  obtain ⟨-, hout, -, -⟩ := hinv.inHeader hp
  refine inv_of_loopTest ?_ (hinv.cause_eq_none herr) ⟨Nat.le_add_left _ _, hbytes, ?_, hcs, hcap⟩ ?_ (hinv.cacheInv herr)
    hinv.outCanonical (hinv.writtenBelowCursor herr)
  · simp only [State.afterHeader_phase, phaseAfterHeader, State.afterHeader_outPos, hout, State.afterHeader_hdr, eq_comm]
  · simp [hout]
  · simp [hout]

/-- A completed opcode meets the invariant: it has added whole pixels, and they fit (R131, R138). -/
theorem inv_afterOpcode {s : State} (hinv : Inv s) {i : Instr} (hp : s.phase = .pixels) (hbytes : Fetchable i.length s)
    (hroom : Emittable (pixelCount s.cfg.runBias i) s) : Inv (s.afterOpcode i) := by
  have herr : s.phase ≠ .error := by simp [hp]
  obtain ⟨⟨hafter, -, hwhole, hcs, hcap⟩, hlt⟩ := hinv.inPixels hp
  obtain ⟨hwritten, -⟩ := State.emitAll_out (s := s.advanceIn i.length) (pixelsOf i s) (hinv.writtenBelowCursor herr)
  refine inv_of_loopTest ?_ ?_ ⟨?_, ?_, ?_, ?_, ?_⟩ ?_
    (cacheInv_emitAll (s := s.advanceIn i.length) (hinv.cacheInv herr) _) (State.emitAll_out_wf _ hinv.outCanonical) hwritten
  · rw [State.afterOpcode_phase hp, State.afterOpcode_hdr]
  · rw [State.afterOpcode_cause, hinv.cause_eq_none herr]
  · rw [State.afterOpcode_inPos]
    exact hafter.trans (Nat.le_add_right _ _)
  · rwa [State.afterOpcode_inPos, State.afterOpcode_input]
  · rw [State.afterOpcode_outPos, State.afterOpcode_hdr]
    exact dvd_add hwhole (dvd_mul_left _ _)
  · rwa [State.afterOpcode_hdr]
  · rwa [State.afterOpcode_cfg, State.afterOpcode_hdr]
  · rw [State.afterOpcode_outPos, State.afterOpcode_hdr]
    obtain hzero | hroom := hroom
    · simp [hzero, hlt.le]
    · exact hroom

/-- Settles O3: each of the three ways a step can answer leads to a state that meets the invariant. -/
theorem stepKeepsInvariant : Obligations.StepKeepsInvariant := by
  intro s t hinv hstep
  obtain ⟨-, hto⟩ := step_cases hstep
  cases hto with
  | header hp hfetch hcs hcap => exact inv_afterHeader hinv hp (fetchable_of_fetchInstr hfetch) hcs hcap
  | opcode hp hfetch hroom => exact inv_afterOpcode hinv hp (fetchable_of_fetchInstr hfetch) hroom
  | raised hcause _ => exact inv_raise hcause s

/-- Settles O5: no way of answering writes IN, a parameter or the reset bit, and only HEADER and errors write HDR. -/
theorem stepKeepsInputAndParameters : Obligations.StepKeepsInputAndParameters := by
  intro s t hstep
  obtain ⟨hr, hto⟩ := step_cases hstep
  cases hto with
  | header hp => exact ⟨rfl, rfl, hr, fun hpix => nomatch hp.symm.trans hpix⟩
  | opcode => simp [hr]
  | raised => exact ⟨rfl, rfl, hr, fun _ herr => absurd rfl herr⟩

end Sys2Proof.Machine
end

section
/-! PROOFS. 70_reset_and_hazards.md: the pixels emitted since reset determine PX, CACHE and OUT (R240, R241). -/

namespace Sys2Proof.Machine

/-- A header step emits no pixel. -/
theorem stepPixels_of_header {s : State} (hp : s.phase = .header) : stepPixels s = [] := by
  simp [stepPixels, hp]

/-- An opcode step emits the pixels of the fetched opcode (R132). -/
theorem stepPixels_of_fetchInstr {s : State} {i : Instr} (hp : s.phase = .pixels) (hfetch : fetchInstr .stream s = .ok i) :
    stepPixels s = pixelsOf i s := by
  simp [stepPixels, hp, hfetch]

/-- The most recent pixel of a hash among two lists: in the later one if it is there (R240). -/
theorem find?_reverse_append_getD (ps qs : List Pixel) (f : Pixel → Bool) (d : Pixel) :
    ((ps ++ qs).reverse.find? f).getD d = (qs.reverse.find? f).getD ((ps.reverse.find? f).getD d) := by
  rw [List.reverse_append, List.find?_append]
  cases qs.reverse.find? f <;> rfl

/-- A state that agrees with a list agrees, after emitting more pixels, with the list followed by these. -/
theorem History.emitAll {ps : List Pixel} {s : State} (h : History ps s) (hwritten : s.out.map Prod.fst = List.range s.outPos)
    (qs : List Pixel) : History (ps ++ qs) (s.emitAll qs) := by
  obtain ⟨hpx, hslots, hout, hsamples⟩ := h
  refine ⟨?_, fun j => ?_, ?_, ?_⟩
  · rw [State.emitAll_px, hpx]
    cases qs using List.reverseRecOn <;> simp
  · rw [State.emitAll_slot, hslots, find?_reverse_append_getD]
  · rw [State.emitAll_outPos, State.emitAll_hdr, hout, List.length_append, Nat.add_mul]
  · obtain ⟨-, hmore⟩ := State.emitAll_out qs hwritten
    rw [hmore, State.emitAll_hdr, hsamples, List.flatMap_append]

/-- Before the header step no pixel has been emitted (R41). -/
theorem History.eq_nil {ps : List Pixel} {s : State} (h : History ps s) (hout : s.outPos = 0) : ps = [] := by
  have hzero := h.outPos.symm.trans hout
  exact List.length_eq_zero_iff.mp ((Nat.mul_eq_zero.mp hzero).resolve_right (spp_pos s.hdr).ne')

/-- Settles O46: a header step emits nothing, and a completed opcode appends its pixels. -/
theorem stepKeepsHistory : Obligations.StepKeepsHistory := by
  intro ps s t hinv hhist hstep herr
  obtain ⟨-, hto⟩ := step_cases hstep
  cases hto with
  | header hp =>
    obtain ⟨-, hout, -, -⟩ := hinv.inHeader hp
    obtain rfl := hhist.eq_nil hout
    rw [stepPixels_of_header hp]
    exact ⟨hhist.px, hhist.slots, by simp [hout], hhist.samples⟩
  | @opcode i hp hfetch =>
    have hwritten := hinv.writtenBelowCursor (by simp [hp])
    obtain ⟨hpx, hslots, hout, hsamples⟩ := hhist
    have hadvanced : History ps (s.advanceIn i.length) := ⟨hpx, hslots, hout, hsamples⟩
    obtain ⟨hpx', hslots', hout', hsamples'⟩ := hadvanced.emitAll hwritten (pixelsOf i s)
    rw [stepPixels_of_fetchInstr hp hfetch]
    exact ⟨hpx', hslots', hout', hsamples'⟩
  | raised => exact absurd rfl herr

/-- Every state that a decode comes to meets the invariant and agrees with the pixels emitted on the way. -/
theorem inv_history_of_reached {cfg : Config} {input : List Byte} {ps : List Pixel} {s : State}
    (h : Reached cfg input ps s) : Inv s ∧ History ps s := by
  induction h with
  | launch n => exact ⟨inv_launch cfg input n, rfl, get_replicate_zeroPixel, by simp, rfl⟩
  | step _ hstep herr ih =>
    obtain ⟨hinv, hhist⟩ := ih
    exact ⟨stepKeepsInvariant _ _ hinv hstep, stepKeepsHistory _ _ _ hinv hhist hstep herr⟩

/-- Settles O39: every reached state agrees with its pixels, and INDEX reads the slot its field numbers. -/
theorem historyDeterminesTheState : Obligations.HistoryDeterminesTheState := by
  intro cfg input ps s h
  obtain ⟨-, hpx, hslots, hout, hsamples⟩ := inv_history_of_reached h
  refine ⟨hpx, hslots, fun idx => (hslots idx.toFin).trans ?_, hout, hsamples⟩
  have hsame : (fun p => pixelHash p == idx.toFin) = fun p => (pixelHash p).val == idx.toNat := by
    funext p
    simp [Fin.ext_iff, beq_eq_decide]
  rw [hsame]
  rfl

end Sys2Proof.Machine
end

section
/-! PROOFS. 42_literal.md to 45_run.md: what each opcode does when its bytes are there and its pixels fit (R150 to R185). -/

namespace Sys2Proof.Machine

/-! One pixel. -/

/-- An opcode that emits one pixel has exactly the effects of one commit (R135). -/
theorem emitsOne_afterOpcode {s : State} {i : Instr} {p : Pixel} (hp : s.phase = .pixels) (hone : pixelsOf i s = [p]) :
    EmitsOne i.length p s (s.afterOpcode i) := by
  have hstate : s.afterOpcode i = ((s.advanceIn i.length).emit p).endOpcode := by rw [State.afterOpcode, hone]; rfl
  have hslots := State.emit_slot p (s.advanceIn i.length)
  obtain ⟨hr, hg, hb, ha, hframe⟩ := read_samples s.out s.hdr p s.outPos
  have hphase := State.afterOpcode_phase (i := i) hp
  have huntouched := untouched_afterOpcode i s
  rw [hstate] at hphase huntouched ⊢
  exact ⟨rfl, rfl, rfl, (hslots _).trans (if_pos rfl), fun j hj => (hslots j).trans (if_neg hj), hr, hg, hb, ha, hframe,
    hphase, huntouched⟩

/-- Every opcode but RUN, with its bytes in IN and room for one pixel, completes with the effects of one commit. -/
theorem exec_emitsOne {s : State} {i : Instr} {p : Pixel} (hi : i.place = .stream) (hone : pixelsOf i s = [p])
    (hp : s.phase = .pixels) (hf : Fetchable i.length s) (hroom : HasRoom 1 s) :
    exec i s = .next (s.afterOpcode i) ∧ EmitsOne i.length p s (s.afterOpcode i) := by
  have hcount : pixelCount s.cfg.runBias i = 1 := by rw [← pixelsOf_length, hone]; rfl
  exact ⟨exec_next hi hp hf (.inr (by rwa [hcount])), emitsOne_afterOpcode hp hone⟩

/-- Settles O18: RGB emits its operands and the alpha of PX. -/
theorem rgbInheritsAlpha : Obligations.RgbInheritsAlpha :=
  fun _ r g b hp hf hroom => ⟨_, exec_emitsOne (i := .rgb r g b) rfl rfl hp hf hroom⟩

/-- Settles O19: RGBA emits its operands. -/
theorem rgbaTakesItsOwnAlpha : Obligations.RgbaTakesItsOwnAlpha :=
  fun _ r g b a hp hf hroom => ⟨_, exec_emitsOne (i := .rgba r g b a) rfl rfl hp hf hroom⟩

/-- Settles O20: INDEX emits the slot as it was. -/
theorem indexEmitsTheSlot : Obligations.IndexEmitsTheSlot :=
  fun _ idx hp hf hroom => ⟨_, exec_emitsOne (i := .index idx) rfl rfl hp hf hroom⟩

/-- Settles O21: the zero pixel hashes to slot 0, so the indexed slot is either that one or untouched. -/
theorem indexOfUnwrittenSlot : Obligations.IndexOfUnwrittenSlot := by
  intro s idx hp hf hroom hzero
  obtain ⟨t, hexec, heffects⟩ := indexEmitsTheSlot s idx hp hf hroom
  rw [hzero] at heffects
  have hslot : t.cache.get 0 = ⟨0, 0, 0, 0⟩ := heffects.slot
  refine ⟨t, hexec, heffects, heffects.px, hslot, ?_⟩
  by_cases hidx : idx.toFin = 0
  · rw [hidx, hslot]
  · rw [heffects.otherSlots _ hidx, hzero]

/-- Settles O22: a pixel other than the zero pixel stands at its own hash, so INDEX writes it where it was. -/
theorem indexOfWrittenSlotKeepsCache : Obligations.IndexOfWrittenSlotKeepsCache := by
  intro s idx hp hf hroom hcache hne
  obtain ⟨t, hexec, heffects⟩ := indexEmitsTheSlot s idx hp hf hroom
  have hhash : pixelHash (s.cache.get idx.toFin) = idx.toFin := (hcache idx.toFin).resolve_left hne
  have hslots : ∀ j, t.cache.get j = s.cache.get j := fun j => by
    by_cases hj : j = pixelHash (s.cache.get idx.toFin)
    · rw [hj, heffects.slot, hhash]
    · exact heffects.otherSlots j hj
  exact ⟨t, hexec, Vector.ext fun k hk => hslots ⟨k, hk⟩, heffects.px⟩

/-- Settles O23: each component is moved by its own delta, reduced modulo 256. -/
theorem diffMovesEachChannel : Obligations.DiffMovesEachChannel := by
  intro s fr fg fb hp hf hroom
  obtain ⟨hexec, heffects⟩ := exec_emitsOne (i := .diff fr fg fb) rfl rfl hp hf hroom
  exact ⟨_, _, hexec, heffects, addDelta_toNat _ _, addDelta_toNat _ _, addDelta_toNat _ _, rfl⟩

/-- The mask 0x3F keeps all six payload bits (R87, D2). -/
theorem lumaGreenDelta_sixBits (fdg : BitVec 6) : lumaGreenDelta .sixBits fdg = (fdg.toNat : Int) - 32 := by
  have hall : fdg &&& lumaMaskBits .sixBits = fdg := BitVec.and_allOnes
  rw [lumaGreenDelta, hall]
  rfl

/-- The mask 0x1F keeps the low five payload bits (R87, D2). -/
theorem lumaGreenDelta_fiveBits (fdg : BitVec 6) :
    lumaGreenDelta .fiveBits fdg = ((fdg.toNat % 32 : Nat) : Int) - 32 := by
  have hlow : (fdg &&& lumaMaskBits .fiveBits).toNat = fdg.toNat % 32 :=
    (BitVec.toNat_and _ _).trans (Nat.and_two_pow_sub_one_eq_mod _ 5)
  rw [lumaGreenDelta, biased, hlow]
  rfl

/-- Settles O24: red and blue move by the sum of two deltas, which the exact sum regroups. -/
theorem lumaMovesByGreen : Obligations.LumaMovesByGreen := by
  intro s fdg frg fbg hp hf hroom
  obtain ⟨hexec, heffects⟩ := exec_emitsOne (i := .luma fdg frg fbg) rfl rfl hp hf hroom
  refine ⟨_, _, lumaGreenDelta s.cfg.lumaDgMask fdg, hexec, heffects, fun hmask => ?_, fun hmask => ?_, ?_,
    addDelta_toNat _ _, ?_, rfl⟩
  · rw [hmask, lumaGreenDelta_sixBits]
  · rw [hmask, lumaGreenDelta_fiveBits]
  · rw [add_assoc]
    exact addDelta_toNat _ _
  · rw [add_assoc]
    exact addDelta_toNat _ _

/-! RUN. -/

/-- Emissions change no sample outside the ones they write: from the old OUT_POS up to the new one (R58). -/
theorem read_emitAll_outside (ps : List Pixel) {s : State} {a : Nat}
    (ha : a < s.outPos ∨ s.outPos + ps.length * spp s.hdr ≤ a) :
    Memory.read (s.emitAll ps).out a = Memory.read s.out a := by
  induction ps generalizing s with
  | nil => rfl
  | cons p ps ih =>
    obtain ⟨-, -, -, -, hframe⟩ := read_samples s.out s.hdr p s.outPos
    rw [List.length_cons, Nat.succ_mul] at ha
    rw [State.emitAll_cons, ih (s := s.emit p) (by simp only [State.emit_outPos, State.emit_hdr]; omega)]
    exact hframe a (by omega)

/-- The k-th pixel emitted is where the k pixels before it moved the cursor to (R58). -/
theorem read_emitAll_getElem {s : State} {ps : List Pixel} {k : Nat} (hk : k < ps.length) :
    Memory.read (s.emitAll ps).out (s.outPos + k * spp s.hdr) = some ps[k].r ∧
    Memory.read (s.emitAll ps).out (s.outPos + k * spp s.hdr + 1) = some ps[k].g ∧
    Memory.read (s.emitAll ps).out (s.outPos + k * spp s.hdr + 2) = some ps[k].b ∧
    (s.hdr.channels = 4 → Memory.read (s.emitAll ps).out (s.outPos + k * spp s.hdr + 3) = some ps[k].a) := by
  have hsplit : s.emitAll ps = (s.emitAll (ps.take k)).emitAll (ps[k] :: ps.drop (k + 1)) := by
    rw [← State.emitAll_append, List.cons_getElem_drop_succ, List.take_append_drop]
  have hreads := read_emitAll_cons ps[k] (ps.drop (k + 1)) (s.emitAll (ps.take k))
  rwa [← hsplit, State.emitAll_hdr, State.emitAll_outPos, List.length_take_of_le hk.le] at hreads

/-- Emitting copies of one pixel leaves every slot but its own (R25). -/
theorem get_emitAll_replicate (n : Nat) (p : Pixel) (s : State) (j : Fin 64) :
    (s.emitAll (List.replicate n p)).cache.get j = if 0 < n ∧ j = pixelHash p then p else s.cache.get j := by
  rw [State.emitAll_slot, List.reverse_replicate]
  rcases n.eq_zero_or_pos with rfl | hn
  · rfl
  · by_cases hj : j = pixelHash p
    · simp [hj, hn]
    · simp [hj, Ne.symm hj]

/-- The last of copies of PX is PX again (R180). -/
theorem getLastD_replicate_self {α : Type} (n : Nat) (a : α) : (List.replicate n a).getLastD a = a := by
  cases n <;> simp [List.getLastD_eq_getLast?, List.getLast?_replicate]

/-- Settles O25: the copies are emitted one behind the other from OUT_POS. -/
theorem runRepeatsPreviousPixel : Obligations.RunRepeatsPreviousPixel := by
  intro s frun n hzero hone hp hf hroom
  have hn : pixelCount s.cfg.runBias (.run frun) = n := by
    cases hbias : s.cfg.runBias with
    | zero => exact (hzero hbias).symm
    | one => exact (hone hbias).symm
  have hps : pixelsOf (.run frun) s = List.replicate n s.px := by rw [← hn]; rfl
  have hout : (s.afterOpcode (.run frun)).out = ((s.advanceIn 1).emitAll (List.replicate n s.px)).out := by
    rw [← hps]; rfl
  have hslot := get_emitAll_replicate n s.px (s.advanceIn 1)
  have hcache : (s.afterOpcode (.run frun)).cache = ((s.advanceIn 1).emitAll (List.replicate n s.px)).cache := by
    rw [← hps]; rfl
  refine ⟨_, exec_next rfl hp hf (.inr (by rwa [hn])), State.afterOpcode_inPos _ _, ?_, ?_, ?_, fun hpos => ?_,
    fun j hj => ?_, fun k hk => ?_, fun a ha => ?_, State.afterOpcode_phase hp,
    untouched_afterOpcode _ _⟩
  · rw [State.afterOpcode_outPos, hn]
  · rw [State.afterOpcode_px, hps, getLastD_replicate_self]
  · rintro rfl
    exact hcache
  · rw [hcache, hslot, if_pos ⟨hpos, rfl⟩]
  · rw [hcache, hslot, if_neg fun ⟨_, h⟩ => hj h, State.advanceIn_cache]
  · rw [hout]
    have hreads := read_emitAll_getElem (s := s.advanceIn 1) (ps := List.replicate n s.px) (k := k) (by simpa using hk)
    rwa [List.getElem_replicate] at hreads
  · rw [hout]
    exact read_emitAll_outside _ (s := s.advanceIn 1) (by simpa using ha)

/-- An empty RUN only moves past its byte and does the loop test (R182). -/
theorem afterOpcode_of_no_pixels {s : State} {i : Instr} (h : pixelsOf i s = []) :
    s.afterOpcode i = (s.advanceIn i.length).endOpcode := by
  rw [State.afterOpcode, h, State.emitAll_nil]

/-- Below TOTAL the loop test changes nothing (R131). -/
theorem endOpcode_of_ne {s : State} (h : s.outPos ≠ total s.hdr) : s.endOpcode = s := by
  simp only [State.endOpcode, phaseAfterOpcode, if_neg h]

/-- Settles O26: with RUN_BIAS = 0 the field 0 gives no copies, and with RUN_BIAS = 1 every field gives at least one. -/
theorem zeroLengthRun : Obligations.ZeroLengthRun := by
  intro s hp hf hlt
  constructor
  · intro hbias
    have hcount : pixelCount s.cfg.runBias (.run 0) = 0 := by rw [hbias]; rfl
    have hnone : pixelsOf (.run 0) s = [] := by rw [← List.length_eq_zero_iff, pixelsOf_length, hcount]
    rw [exec_next (i := .run 0) rfl hp hf (.inl hcount), afterOpcode_of_no_pixels hnone]
    exact congrArg _ (endOpcode_of_ne (s := s.advanceIn 1) hlt.ne)
  · intro hbias frun t hexec herr
    have hpos : 1 ≤ pixelCount s.cfg.runBias (.run frun) := by
      rw [hbias]
      exact Nat.le_add_left _ _
    by_cases hroom : Emittable (pixelCount s.cfg.runBias (.run frun)) s
    · cases (exec_next (i := .run frun) rfl hp hf hroom).symm.trans hexec
      rw [State.afterOpcode_outPos]
      exact Nat.add_le_add_left (Nat.le_mul_of_pos_left _ hpos) _
    · cases (exec_overrun (i := .run frun) rfl hp hf hroom).symm.trans hexec
      exact absurd rfl herr

/-- Copies of a pixel after the first write its slot and PX again with what they hold (R184). -/
theorem emitAll_replicate_succ (n : Nat) (p : Pixel) (s : State) :
    s.emitAll (List.replicate (n + 1) p) =
      { s.emit p with
        out := (s.emitAll (List.replicate (n + 1) p)).out, outPos := s.outPos + (n + 1) * spp s.hdr } := by
  have hcache : (s.emitAll (List.replicate (n + 1) p)).cache = (s.emit p).cache := by
    refine Vector.ext fun k hk => (get_emitAll_replicate (n + 1) p s ⟨k, hk⟩).trans ?_
    simp only [Nat.succ_pos, true_and]
    exact (State.emit_slot p s ⟨k, hk⟩).symm
  have hpx : (s.emitAll (List.replicate (n + 1) p)).px = p := by
    rw [State.emitAll_px, List.replicate_succ, List.getLastD_cons, getLastD_replicate_self]
  obtain ⟨hcfg, hinput, hreset, hphase, hcause, hhdr, hinPos, hfree, houtPos⟩ :=
    State.emitAll_frame (List.replicate (n + 1) p) s
  rw [List.length_replicate] at houtPos
  generalize s.emitAll (List.replicate (n + 1) p) = t at *
  cases t
  simp_all

/-- Settles O27: later copies write again what the first wrote; and the initial PX hashes to 53. -/
theorem runRepetitionsAreIdempotent : Obligations.RunRepetitionsAreIdempotent := by
  constructor
  · intro n s t u hrun hone
    obtain ⟨rfl, -⟩ := commit_inv hone
    rw [commitRun_eq] at hrun
    split at hrun
    · cases hrun
      exact emitAll_replicate_succ n s.px s
    · nomatch hrun
  · intro s frun hp hpx hf hpos hroom
    have hn : ∀ bias, s.cfg.runBias = bias → runLength s.cfg.runBias frun = frun.toNat + runBiasValue bias := by
      rintro _ rfl
      rfl
    obtain ⟨t, hexec, -, -, -, -, hslot, -⟩ :=
      runRepeatsPreviousPixel s frun (runLength s.cfg.runBias frun) (hn .zero) (hn .one) hp hf hroom
    have h53 : t.cache.get 53 = ⟨0, 0, 0, 255⟩ := by
      have h := hslot hpos
      rwa [hpx] at h
    exact ⟨t, hexec, h53, h53⟩

/-! Room. -/

/-- Settles O30: OUT_POS and TOTAL are whole numbers of pixels, so below TOTAL there is room for one (R138). -/
theorem firstPixelAlwaysFits : Obligations.FirstPixelAlwaysFits := by
  intro s hinv hp hchannels
  obtain ⟨hparsed, hlt⟩ := hinv.inPixels hp
  obtain ⟨k, hk⟩ := hparsed.wholePixels
  obtain ⟨m, hm⟩ := spp_dvd_total hchannels
  have hkm : k < m := by
    rw [hk, hm] at hlt
    exact Nat.lt_of_mul_lt_mul_left hlt
  calc s.outPos + 1 * spp s.hdr = spp s.hdr * (k + 1) := by rw [hk, one_mul, Nat.mul_succ]
    _ ≤ spp s.hdr * m := Nat.mul_le_mul_left _ hkm
    _ = total s.hdr := hm.symm

end Sys2Proof.Machine
end

section
/-! PROOFS. 60_exceptions.md: which step raises which error, and what an error leaves (R190 to R198). -/

namespace Sys2Proof.Machine

/-- Bytes that are no whole opcode raise TruncationError (R54, R132). -/
theorem step_pixels_truncated {s : State} (hr : s.hasBeenReset = true) (hp : s.phase = .pixels)
    (hd : decodeOpcode s.remaining = .error .exhausted) : step s = .next (s.raise .truncation) := by
  have hfetch : fetchInstr .stream s = .error .exhausted := by simp [fetchInstr, decode, hd]
  exact (step_pixels hr hp).trans (stepAt_error hfetch)

/-- Settles O28: the bytes are fetched before anything is committed. -/
theorem truncatedOpcodeRaises : Obligations.TruncatedOpcodeRaises := by
  refine ⟨fun i s hi hp hf => exec_truncated hi hp hf, fun s hr hp => ⟨fun hnone => ?_, fun tag rest hrem hshort => ?_⟩⟩
  · exact step_pixels_truncated hr hp (by rw [hnone]; rfl)
  · obtain ⟨-, -, hexhausted⟩ := opcodeLengthFromFirstByte tag rest
    exact step_pixels_truncated hr hp (by rw [hrem, hexhausted hshort])

/-- Settles O29: pixels that do not all fit are at least one, so the commits overrun. -/
theorem overrunRaises : Obligations.OverrunRaises := by
  intro i s hi hp hf hle hroom
  rw [pixelsOf_length] at hroom
  refine exec_overrun hi hp hf fun hfits => hroom ?_
  obtain hzero | hfits := hfits
  · simpa [HasRoom, hzero] using hle
  · exact hfits

/-- With room for one pixel, only a RUN has more pixels than room (R138, R191). -/
theorem not_emittable_iff {s : State} (hroom : HasRoom 1 s) (i : Instr) :
    ¬ Emittable (pixelCount s.cfg.runBias i) s ↔ ∃ frun, i = .run frun ∧ ¬ HasRoom (runLength s.cfg.runBias frun) s := by
  cases i with
  | run frun =>
    have hnone : HasRoom 0 s := by simp only [HasRoom] at *; omega
    simp only [pixelCount, Emittable, Instr.run.injEq, exists_eq_left']
    refine not_congr (or_iff_right_of_imp fun hzero => ?_)
    rwa [hzero]
  | header => simp [pixelCount, Emittable]
  | rgb | rgba | index | diff | luma =>
    simp only [pixelCount, Emittable, hroom, or_true, not_true, reduceCtorEq, false_and, exists_false]

/-- The opcodes with operand bytes (R91). -/
theorem dispatch_of_one_lt_length {op : Opcode} (h : 1 < opcodeLength op) : op = .rgb ∨ op = .rgba ∨ op = .luma := by
  cases op <;> simp [opcodeLength] at h ⊢

/-- Settles O31: the ways a step can answer, read off its fetch and its room. -/
theorem errorsEachStepCanRaise : Obligations.ErrorsEachStepCanRaise := by
  intro s t hinv hstep
  obtain ⟨hr, hto⟩ := step_cases hstep
  refine ⟨fun hp => ?_, fun hp hchannels => ⟨fun i hfetch => ?_, fun e hfetch => ?_⟩⟩
  · cases hto with
    | header => simp [hinv.cause_eq_none (by simp [hp])]
    | opcode hpix => nomatch hp.symm.trans hpix
    | raised _ hnot => exact hnot hp
  · have hplace := place_of_fetchInstr hfetch
    have hbytes := fetchable_of_fetchInstr hfetch
    rw [step_pixels hr hp, stepAt_ok hfetch] at hstep
    rw [← not_emittable_iff (firstPixelAlwaysFits s hinv hp hchannels)]
    by_cases hroom : Emittable (pixelCount s.cfg.runBias i) s
    · cases (exec_next hplace hp hbytes hroom).symm.trans hstep
      simp [hinv.cause_eq_none (s := s) (by simp [hp]), hroom]
    · cases (exec_overrun hplace hp hbytes hroom).symm.trans hstep
      simp [hroom]
  · obtain ⟨rfl, hshort⟩ := fetchInstr_stream_error hfetch
    rw [step_pixels hr hp, stepAt_error hfetch] at hstep
    cases hstep
    refine ⟨rfl, fun tag rest hrem => dispatch_of_one_lt_length ?_⟩
    have hlt := hshort tag rest hrem
    omega

/-- Every cause but NONE has an error class (R190). -/
theorem Cause.errorClass_ne_none {c : Cause} (hc : c ≠ .none) : c.errorClass ≠ Option.none := by
  cases c with
  | none => exact absurd rfl hc
  | formatMagic | formatColorspace | truncation | overrun => exact Option.some_ne_none _

/-- A host that finds ERROR can read PHASE and CAUSE and nothing else (R197, R207). -/
theorem readPort_of_error {t : State} (hp : t.phase = .error) {reg : PortReg} (hphase : reg ≠ .phase)
    (hcause : reg ≠ .cause) : readPort reg t = none := by
  cases reg with
  | phase => exact absurd rfl hphase
  | cause => exact absurd rfl hcause
  | width | height | channels | colorspace | outPos | inPos => simp [readPort, hp, headerReadable]

/-- Settles O32: only raising ends in ERROR. -/
theorem errorEntryLeavesOnlyTheCause : Obligations.ErrorEntryLeavesOnlyTheCause := by
  intro s t hstep herr
  obtain ⟨hr, hto⟩ := step_cases hstep
  cases hto with
  | header =>
    rw [State.afterHeader_phase, phaseAfterHeader] at herr
    split at herr <;> nomatch herr
  | opcode hp =>
    rw [State.afterOpcode_phase hp] at herr
    split at herr <;> nomatch herr
  | @raised c hcause =>
    refine ⟨hcause, rfl, rfl, ?_, ?_, fun _ => readPort_of_error rfl, fun a => ⟨?_, rfl⟩, rfl,
      Cause.errorClass_ne_none hcause, ?_⟩
    · simp [readPort, hr, Phase.code]
    · simp [readPort, hr]
    · simp [readOut]
    · simp [step, hr]

end Sys2Proof.Machine
end

section
/-! PROOFS. 40_header.md: what the header step stores, and which error it raises (R110 to R117). -/

namespace Sys2Proof.Machine

/-- Settles O13: the checks pass, and the writes are those of the header step. -/
theorem headerStoresItsFields : Obligations.HeaderStoresItsFields := by
  intro s width height channels colorspace hp hf hcs hcap
  have hfits : fitsCapacity s.cfg.outCapacity (total ⟨width, height, channels, colorspace⟩) = true := by
    cases hcapacity : s.cfg.outCapacity with
    | none => rfl
    | some c => exact decide_eq_true (hcap c hcapacity)
  have hexec := exec_header_eq hp hf magicTag width height channels colorspace
  rw [if_pos rfl, if_pos ((colorspaceOk_iff _).mpr hcs), if_pos hfits] at hexec
  exact ⟨_, hexec, rfl, rfl, rfl, rfl, rfl, rfl, rfl, rfl, rfl, rfl, rfl, rfl⟩

/-- Settles O17: the checks pass, and OUT_CAPACITY does not hold TOTAL. -/
theorem headerBeyondCapacityIsRefused : Obligations.HeaderBeyondCapacityIsRefused := by
  intro s width height channels colorspace c hp hf hcs hcapacity hlt
  have hbeyond : ¬ fitsCapacity s.cfg.outCapacity (total ⟨width, height, channels, colorspace⟩) = true := by
    rw [hcapacity]
    exact fun hfits => absurd (of_decide_eq_true hfits) (Nat.not_le.mpr hlt)
  have hexec := exec_header_eq hp hf magicTag width height channels colorspace
  rwa [if_pos rfl, if_pos ((colorspaceOk_iff _).mpr hcs), if_neg hbeyond] at hexec

/-- Settles O16: TOTAL is 0, which every capacity holds, and no sample lies below it. -/
theorem zeroSizeImageIsDone : Obligations.ZeroSizeImageIsDone := by
  intro s width height channels colorspace rest hinv hr hp hcs hzero hin
  have htotal : width.toNat * height.toNat * channels.toNat = 0 := by
    obtain rfl | rfl | rfl := hzero <;> simp
  obtain ⟨hpos, -, -, -⟩ := hinv.inHeader hp
  have hrem : s.remaining = encode (.header magicTag width height channels colorspace) ++ rest := by
    rw [State.remaining, hpos, hin]
    rfl
  have hdecode : decode .start s.remaining = .ok (.header magicTag width height channels colorspace, rest) := by
    rw [hrem]
    exact decodeOfEncodeIsInstr (.header magicTag width height channels colorspace) rest nofun
  have hf : Fetchable 14 s := fetchable_of_fetchInstr (fetchInstr_ok_iff.mpr ⟨rest, hdecode⟩)
  obtain ⟨t, hexec, hhdr, hinPos, hphase, -⟩ := headerStoresItsFields s width height channels colorspace hp hf hcs
    fun c _ => htotal.trans_le (Nat.zero_le c)
  rw [if_pos htotal] at hphase
  refine ⟨t, (step_of_decode_start hr hp hdecode).trans hexec, hphase, by rw [hinPos, hpos], ?_⟩
  have hnone : List.range (total t.hdr) = [] := by
    rw [hhdr]
    exact congrArg List.range htotal
  simp only [result, hphase, hnone, List.filterMap_nil]
  rw [hhdr]

/-! The order of the checks. -/

/-- The bytes of the magic are those of its tag (R62). -/
theorem be32_eq_magicTag_iff (m0 m1 m2 m3 : Byte) :
    be32 m0 m1 m2 m3 = magicTag ↔ [m0, m1, m2, m3] = [0x71, 0x6F, 0x69, 0x66] := by
  rw [← be32Bytes_be32]
  refine ⟨fun h => by rw [h]; rfl, fun h => ?_⟩
  exact (be32_extractLsb' _).symm.trans (by simp only [be32Bytes, List.cons.injEq] at h; simp only [h]; rfl)

/-- Four bytes and fewer than ten after them are no header; whether the four are the magic decides how they are rejected
(R111). -/
theorem decodeHeader_of_fields_lt_ten (m0 m1 m2 m3 : Byte) {fields : List Byte} (h : fields.length < 10) :
    decodeHeader (m0 :: m1 :: m2 :: m3 :: fields) =
      .error (if be32 m0 m1 m2 m3 = magicTag then .exhausted else .wrongMagic) :=
  match fields, h with
  | [], _ | [_], _ | [_, _], _ | [_, _, _], _ | [_, _, _, _], _ | [_, _, _, _, _], _ | [_, _, _, _, _, _], _
  | [_, _, _, _, _, _, _], _ | [_, _, _, _, _, _, _, _], _ | [_, _, _, _, _, _, _, _, _], _ => rfl

/-- Fourteen bytes are a header: the magic is in the first four and the colorspace in the last (R81). -/
theorem decodeHeader_of_fields_ge_ten (m0 m1 m2 m3 : Byte) {fields : List Byte} (h : 10 ≤ fields.length) :
    ∃ w ht c cs rest, fields[9]? = some cs ∧
      decodeHeader (m0 :: m1 :: m2 :: m3 :: fields) = .ok (.header (be32 m0 m1 m2 m3) w ht c cs, rest) :=
  match fields, h with
  | _ :: _ :: _ :: _ :: _ :: _ :: _ :: _ :: _ :: _ :: _, _ => ⟨_, _, _, _, _, rfl, rfl⟩

/-- With fewer than fourteen bytes left, of which the first four are there (R111, R112). -/
theorem stepAt_start_short {s : State} {m0 m1 m2 m3 : Byte} {fields : List Byte}
    (hrem : s.remaining = m0 :: m1 :: m2 :: m3 :: fields) (hshort : fields.length < 10) :
    stepAt .start s = .next (s.raise (if be32 m0 m1 m2 m3 = magicTag then .truncation else .formatMagic)) := by
  have hfetch : fetchInstr .start s = .error (if be32 m0 m1 m2 m3 = magicTag then .exhausted else .wrongMagic) := by
    rw [fetchInstr, hrem, decode, decodeHeader_of_fields_lt_ten m0 m1 m2 m3 hshort]
  rw [stepAt_error hfetch, apply_ite rejectCause]
  rfl

/-- With fourteen bytes left, of which the first four and the last are checked, in this order (R110, R111, R114). -/
theorem stepAt_start_long {s : State} (hp : s.phase = .header) {m0 m1 m2 m3 : Byte} {fields : List Byte}
    (hrem : s.remaining = m0 :: m1 :: m2 :: m3 :: fields) (hlong : 10 ≤ fields.length) :
    (be32 m0 m1 m2 m3 ≠ magicTag → stepAt .start s = .next (s.raise .formatMagic)) ∧
    (be32 m0 m1 m2 m3 = magicTag → ∀ cs, fields[9]? = some cs → cs ≠ 0 → cs ≠ 1 →
      stepAt .start s = .next (s.raise .formatColorspace)) := by
  obtain ⟨w, ht, c, cs, rest, hcs, hd⟩ := decodeHeader_of_fields_ge_ten m0 m1 m2 m3 hlong
  rw [← hrem] at hd
  generalize be32 m0 m1 m2 m3 = magic at hd ⊢
  have hfetch : fetchInstr .start s = .ok (.header magic w ht c cs) := fetchInstr_ok_iff.mpr ⟨rest, hd⟩
  rw [stepAt_ok hfetch, exec_header_eq hp (fetchable_of_fetchInstr hfetch)]
  refine ⟨fun hm => if_neg hm, fun hm cs' hcs' h0 h1 => ?_⟩
  obtain rfl : cs = cs' := Option.some.inj (hcs.symm.trans hcs')
  have hbad : ¬ colorspaceOk cs = true := fun hok => ((colorspaceOk_iff cs).mp hok).elim h0 h1
  rw [if_pos hm, if_neg hbad]

/-- Settles O15: the bytes left are fewer than four, or four whose magic is checked before the ten behind them. -/
theorem headerErrorsInOrder : Obligations.HeaderErrorsInOrder := by
  intro s hr hp
  rw [step_header hr hp]
  match hrem : s.remaining with
  | m0 :: m1 :: m2 :: m3 :: fields =>
    simp only [List.take_succ_cons, List.take_zero, ne_eq, ← be32_eq_magicTag_iff, List.length_cons]
    rcases Nat.lt_or_ge fields.length 10 with hshort | hlong
    · have hnone : fields[9]? = none := List.getElem?_eq_none (by omega)
      rw [stepAt_start_short hrem hshort]
      exact ⟨fun h => by omega, fun _ hm => by rw [if_neg hm], fun hm _ => by rw [if_pos hm],
        fun _ cs hcs => nomatch hnone.symm.trans hcs⟩
    · obtain ⟨hmagic, hcolorspace⟩ := stepAt_start_long hp hrem hlong
      exact ⟨fun h => by omega, fun _ => hmagic, fun _ h => by omega, hcolorspace⟩
  | [] | [_] | [_, _] | [_, _, _] =>
    have hfetch : fetchInstr .start s = .error .exhausted := by
      rw [fetchInstr, hrem]
      rfl
    refine ⟨fun _ => stepAt_error hfetch, fun h => ?_, fun h => ?_, fun h => ?_⟩ <;> simp at h

end Sys2Proof.Machine
end

section
/-! PROOFS. 60_exceptions.md and 41_loop_dispatch_commit.md: what the host reads (R207, R209), and that every decode ends
(R130, R142). -/

namespace Sys2Proof.Machine

/-! The host's reads. -/

/-- Settles O37: the port is a table of registers by phases. -/
theorem statusPortByPhase : Obligations.StatusPortByPhase := by
  intro s hr
  refine ⟨by simp [readPort, hr], by simp [readPort, hr], fun hp => ?_, fun hp => ?_, fun hp => ?_, fun hp => ?_⟩
  · have hread : headerReadable s.phase = true := by obtain hp | hp := hp <;> rw [hp] <;> rfl
    simp [readPort, hr, hread]
  · have hhidden : headerReadable s.phase = false := by obtain hp | hp := hp <;> rw [hp] <;> rfl
    simp [readPort, hr, hhidden]
  · exact ⟨by simp [readPort, hr, hp], by simp [readPort, hr, hp], fun a ha => if_pos ⟨hr, hp, ha⟩⟩
  · exact ⟨by simp [readPort, hp], by simp [readPort, hp], fun a => if_neg fun ⟨_, hdone, _⟩ => hp hdone⟩

/-- When the written samples are consecutive from `a`, a read from there on is a look at the list of their values. -/
theorem Memory.read_of_range' {m : Memory} {a n : Nat} (h : m.map Prod.fst = List.range' a n) (k : Nat) :
    Memory.read m (a + k) = (m.map Prod.snd)[k]? := by
  induction m generalizing a n k with
  | nil => rfl
  | cons c rest ih =>
    cases n with
    | zero => nomatch h
    | succ n =>
      simp only [List.map_cons, List.range'_succ, List.cons.injEq] at h
      obtain ⟨hc, hrest⟩ := h
      cases k with
      | zero => simp [Memory.read, hc]
      | succ k =>
        have hne : a + (k + 1) ≠ c.1 := by omega
        simp only [Memory.read, if_neg hne, List.map_cons, List.getElem?_cons_succ]
        rw [← ih hrest k, Nat.add_right_comm, Nat.add_assoc]

/-- When exactly the samples below `n` are written, a read is a look at the list of their values. -/
theorem Memory.read_eq_getElem? {m : Memory} {n : Nat} (h : m.map Prod.fst = List.range n) (a : Nat) :
    Memory.read m a = (m.map Prod.snd)[a]? := by
  rw [List.range_eq_range'] at h
  simpa using Memory.read_of_range' h a

/-- Looking up all indices of a list gives the list. -/
theorem filterMap_getElem?_range {α : Type} (l : List α) : (List.range l.length).filterMap (fun a => l[a]?) = l := by
  induction l with
  | nil => rfl
  | cons x l ih => simpa [List.range_succ_eq_map, List.filterMap_map, Function.comp_def] using ih

/-- Settles O38: at DONE the samples written are those below TOTAL, and the result reads them all. -/
theorem doneReturnsTotalSamples : Obligations.DoneReturnsTotalSamples := by
  intro s hinv hp
  have hwritten := hinv.writtenBelowCursor (by simp [hp])
  obtain ⟨-, hfull⟩ := hinv.inDone hp
  have hlength : (s.out.map Prod.snd).length = s.outPos := by
    simpa using congrArg List.length hwritten
  refine ⟨s.out.map Prod.snd, ?_, hlength.trans hfull, hlength.symm, fun a _ => (Memory.read_eq_getElem? hwritten a).symm⟩
  simp only [result, hp, Memory.read_eq_getElem? hwritten]
  rw [← hfull, ← hlength, filterMap_getElem?_range]

/-! Progress. -/

/-- Settles O40: IN_POS moves by the instruction's length, and with RUN_BIAS = 1 every opcode emits a pixel. -/
theorem stepMakesProgress : Obligations.StepMakesProgress := by
  intro s t hinv hstep herr
  obtain ⟨-, hto⟩ := step_cases hstep
  cases hto with
  | header hp hfetch =>
    have hf : Fetchable 14 s := fetchable_of_fetchInstr hfetch
    exact ⟨Nat.lt_add_of_pos_right (by decide), hf, fun hpix => nomatch hp.symm.trans hpix⟩
  | @opcode i hp hfetch =>
    have hf := fetchable_of_fetchInstr hfetch
    have hpos := i.length_pos
    rw [State.afterOpcode_inPos, State.afterOpcode_input, State.afterOpcode_outPos]
    refine ⟨by omega, hf, fun _ hbias => Nat.add_le_add_left (Nat.le_mul_of_pos_left _ ?_) _⟩
    have hplace := place_of_fetchInstr hfetch
    rw [hbias]
    cases i with
    | header => nomatch hplace
    | run => exact Nat.succ_pos _
    | rgb | rgba | index | diff | luma => exact Nat.one_pos
  | raised => exact absurd rfl herr

/-- After a step no header step follows (R33). -/
theorem phase_ne_header_of_step {s t : State} (hstep : step s = .next t) : t.phase ≠ .header := by
  obtain ⟨-, hto⟩ := step_cases hstep
  cases hto with
  | header =>
    rw [State.afterHeader_phase, phaseAfterHeader]
    split <;> nofun
  | opcode hp =>
    rw [State.afterOpcode_phase hp]
    split <;> nofun
  | raised => nofun

theorem runToEnd_of_final {s : State} (h : s.phase.final = true) (fuel : Nat) : runToEnd fuel s = .next s := by
  cases fuel with
  | zero => rfl
  | succ fuel => simp [runToEnd, h]

theorem runToEnd_succ_of_next {s t : State} (h : s.phase.final = false) (hstep : step s = .next t) (fuel : Nat) :
    runToEnd (fuel + 1) s = runToEnd fuel t := by
  simp [runToEnd, h, hstep]

/-- Behind the header, more steps than bytes are left reach the end: every step that does not end takes a byte (R142). -/
theorem runToEnd_reaches_end {fuel : Nat} {s : State} (hinv : Inv s) (hr : s.hasBeenReset = true) (hp : s.phase ≠ .header)
    (hfuel : s.input.length < fuel + s.inPos) :
    ∃ t, runToEnd fuel s = .next t ∧ (t.phase = .done ∨ t.phase = .error) := by
  induction fuel generalizing s with
  | zero =>
    cases hphase : s.phase with
    | header => exact absurd hphase hp
    | pixels =>
      obtain ⟨hparsed, -⟩ := hinv.inPixels hphase
      have hwithin := hparsed.withinInput
      omega
    | done => exact ⟨s, rfl, .inl hphase⟩
    | error => exact ⟨s, rfl, .inr hphase⟩
  | succ fuel ih =>
    cases hphase : s.phase with
    | header => exact absurd hphase hp
    | pixels =>
      obtain ⟨t, hstep, -⟩ := stepTo_of_stepAt_stream hphase
      rw [← step_pixels hr hphase] at hstep
      rw [runToEnd_succ_of_next (by rw [hphase]; rfl) hstep]
      by_cases herr : t.phase = .error
      · exact ⟨t, runToEnd_of_final (by rw [herr]; rfl) fuel, .inr herr⟩
      · obtain ⟨hprogress, -, -⟩ := stepMakesProgress s t hinv hstep herr
        obtain ⟨hin, -, hr', -⟩ := stepKeepsInputAndParameters s t hstep
        exact ih (stepKeepsInvariant s t hinv hstep) hr' (phase_ne_header_of_step hstep) (by rw [hin]; omega)
    | done => exact ⟨s, runToEnd_of_final (by rw [hphase]; rfl) _, .inl hphase⟩
    | error => exact ⟨s, runToEnd_of_final (by rw [hphase]; rfl) _, .inr hphase⟩

/-- A header step has a next state, or its TOTAL is beyond a finite OUT_CAPACITY (R110, R117). -/
theorem step_header_next_or_refused {s : State} (hr : s.hasBeenReset = true) (hp : s.phase = .header) :
    (∃ t, step s = .next t) ∨ step s = .refused .exceedsOutCapacity ∧ s.cfg.outCapacity ≠ none := by
  rw [step_header hr hp]
  cases hfetch : fetchInstr .start s with
  | error e => exact .inl ⟨_, stepAt_error hfetch⟩
  | ok i =>
    obtain ⟨_, hd⟩ := fetchInstr_ok_iff.mp hfetch
    obtain ⟨m, w, h, c, cs, rfl⟩ := decodeHeader_isHeader hd
    rw [stepAt_ok hfetch, exec_header_eq hp (fetchable_of_fetchInstr hfetch)]
    split_ifs with _ _ hcap
    · exact .inl ⟨_, rfl⟩
    · refine .inr ⟨rfl, fun hnone => hcap ?_⟩
      rw [hnone]
      rfl
    · exact .inl ⟨_, rfl⟩
    · exact .inl ⟨_, rfl⟩

/-- Settles O41: one header step, then as many opcode steps as there are bytes, and one that finds none. -/
theorem decodeTerminates : Obligations.DecodeTerminates := by
  intro s input
  have hinv := inv_launch s.cfg input s.freeCount
  rw [State.applyReset_eq]
  obtain ⟨t, hstep⟩ | ⟨hstep, hcap⟩ := step_header_next_or_refused (s := State.launch s.cfg input s.freeCount) rfl rfl
  · obtain ⟨hin, -, hr, -⟩ := stepKeepsInputAndParameters _ t hstep
    rw [runToEnd_succ_of_next rfl hstep]
    refine .inl (runToEnd_reaches_end (stepKeepsInvariant _ t hinv hstep) hr (phase_ne_header_of_step hstep) ?_)
    rw [hin, State.launch_input]
    omega
  · refine .inr ⟨?_, hcap⟩
    simp [runToEnd, Phase.final, hstep]

end Sys2Proof.Machine
end

section
/-! PROOFS. Independence: bytes behind an instruction (R64), pixel data (R139), and what has no value (R29, R234). -/

namespace Sys2Proof.Machine

/-! Bytes behind an instruction. -/

theorem emitAll_withInput (input : List Byte) (ps : List Pixel) (s : State) :
    (s.withInput input).emitAll ps = (s.emitAll ps).withInput input := by
  induction ps generalizing s with
  | nil => rfl
  | cons p ps ih => exact ih (s.emit p)

/-- What an opcode does depends on no byte of IN but its own. -/
theorem afterOpcode_withInput (input : List Byte) (i : Instr) (s : State) :
    (s.withInput input).afterOpcode i = (s.afterOpcode i).withInput input := by
  have hps : pixelsOf i (s.withInput input) = pixelsOf i s := by cases i <;> rfl
  rw [State.afterOpcode, hps]
  exact congrArg State.endOpcode (emitAll_withInput input (pixelsOf i s) (s.advanceIn i.length))

/-- Bytes that agree up to the end of an instruction fetch the same instruction (R64). -/
theorem fetchInstr_withInput {place : Place} {s : State} {i : Instr} {input : List Byte}
    (hfetch : fetchInstr place s = .ok i)
    (hsame : input.take (s.inPos + i.length) = s.input.take (s.inPos + i.length)) :
    fetchInstr place (s.withInput input) = .ok i := by
  obtain ⟨rest, hd⟩ := fetchInstr_ok_iff.mp hfetch
  refine fetchInstr_ok_iff.mpr ⟨_, decode_of_take_eq hd ?_⟩
  have hdrop := congrArg (List.drop s.inPos) hsame
  rwa [List.drop_take, List.drop_take, Nat.add_sub_cancel_left] at hdrop

/-- Settles O42: the instruction is fetched again, and runs as before. -/
theorem trailingBytesAreNotRead : Obligations.TrailingBytesAreNotRead := by
  intro s t input hstep herr hsame
  obtain ⟨hr, hto⟩ := step_cases hstep
  cases hto with
  | @header h hp hfetch hcs hcap =>
    have hfetch' := fetchInstr_withInput hfetch hsame
    have hf : Fetchable 14 (s.withInput input) := fetchable_of_fetchInstr hfetch'
    rw [step_header (s := s.withInput input) hr hp, stepAt_ok hfetch']
    exact execHeader_next hp hf hcs hcap
  | @opcode i hp hfetch hroom =>
    rw [State.afterOpcode_inPos] at hsame
    have hfetch' := fetchInstr_withInput hfetch hsame
    rw [step_pixels (s := s.withInput input) hr hp, stepAt_ok hfetch', ← afterOpcode_withInput]
    exact exec_next (place_of_fetchInstr hfetch') hp (fetchable_of_fetchInstr hfetch') hroom
  | raised => exact absurd rfl herr

/-! Two states that agree on what decides a step. -/

/-- Outcomes that agree are both next states, or the same fault, or the same refusal. -/
theorem OutcomesAgree.elim {R : State → State → Prop} {o p : Host.Outcome State Fault Refusal}
    (h : OutcomesAgree R o p) : (∃ s t, o = .next s ∧ p = .next t ∧ R s t) ∨ (∃ f, o = .fault f ∧ p = .fault f) ∨
      ∃ r, o = .refused r ∧ p = .refused r := by
  cases o with
  | next s =>
    cases p with
    | next t => exact .inl ⟨s, t, rfl, rfl, h⟩
    | fault | refused => exact False.elim h
  | fault f =>
    cases p with
    | fault g => exact .inr (.inl ⟨f, rfl, congrArg _ (Eq.symm h)⟩)
    | next | refused => exact False.elim h
  | refused q =>
    cases p with
    | refused r => exact .inr (.inr ⟨q, rfl, congrArg _ (Eq.symm h)⟩)
    | next | fault => exact False.elim h

/-- An opcode step as one equation: it raises, or completes (R132, R138). -/
theorem stepAt_stream_ok {s : State} {i : Instr} (hp : s.phase = .pixels) (hfetch : fetchInstr .stream s = .ok i) :
    stepAt .stream s =
      .next (if Emittable (pixelCount s.cfg.runBias i) s then s.afterOpcode i else s.raise .overrun) := by
  have hplace := place_of_fetchInstr hfetch
  have hbytes := fetchable_of_fetchInstr hfetch
  rw [stepAt_ok hfetch]
  split
  · exact exec_next hplace hp hbytes ‹_›
  · exact exec_overrun hplace hp hbytes ‹_›

/-- Two opcode steps with the same IN, IN_POS, OUT_POS, HDR and RUN_BIAS fetch alike and find the same room: they raise the
same error, or both complete the same opcode (R139). -/
theorem outcomesAgree_stepAt_stream {R : State → State → Prop} {s t : State} (hs : s.phase = .pixels)
    (ht : t.phase = .pixels) (hin : t.input = s.input) (hinPos : t.inPos = s.inPos) (hout : t.outPos = s.outPos)
    (hhdr : t.hdr = s.hdr) (hbias : t.cfg.runBias = s.cfg.runBias) (hraise : ∀ c, R (s.raise c) (t.raise c))
    (hafter : ∀ i, R (s.afterOpcode i) (t.afterOpcode i)) : OutcomesAgree R (stepAt .stream s) (stepAt .stream t) := by
  have hfetch := fetchInstr_congr (place := .stream) hin hinPos
  cases hs' : fetchInstr .stream s with
  | error e =>
    rw [stepAt_error hs', stepAt_error (hfetch.trans hs')]
    exact hraise _
  | ok i =>
    rw [stepAt_stream_ok hs hs', stepAt_stream_ok ht (hfetch.trans hs'), hbias]
    simp only [Emittable, HasRoom, hout, hhdr]
    split
    · exact hafter i
    · exact hraise _

/-- Two header steps with the same IN, IN_POS and OUT_CAPACITY parse alike: they raise the same error, store the same header,
or refuse alike (R110). -/
theorem outcomesAgree_stepAt_start {R : State → State → Prop} {s t : State} (hs : s.phase = .header)
    (ht : t.phase = .header) (hin : t.input = s.input) (hinPos : t.inPos = s.inPos)
    (hcap : t.cfg.outCapacity = s.cfg.outCapacity) (hraise : ∀ c, R (s.raise c) (t.raise c))
    (hafter : ∀ h, R (s.afterHeader h) (t.afterHeader h)) : OutcomesAgree R (stepAt .start s) (stepAt .start t) := by
  have hfetch := fetchInstr_congr (place := .start) hin hinPos
  cases hs' : fetchInstr .start s with
  | error e =>
    rw [stepAt_error hs', stepAt_error (hfetch.trans hs')]
    exact hraise _
  | ok i =>
    have ht' := hfetch.trans hs'
    obtain ⟨_, hd⟩ := fetchInstr_ok_iff.mp hs'
    obtain ⟨m, w, h, c, cs, rfl⟩ := decodeHeader_isHeader hd
    rw [stepAt_ok hs', stepAt_ok ht', exec_header_eq hs (fetchable_of_fetchInstr hs'),
      exec_header_eq ht (fetchable_of_fetchInstr ht'), hcap]
    split_ifs
    · exact hafter _
    · rfl
    · exact hraise _
    · exact hraise _

/-- Two steps agree when their header steps and their opcode steps do (R33). -/
theorem outcomesAgree_step {R : State → State → Prop} {s t : State} (hr : t.hasBeenReset = s.hasBeenReset)
    (hp : t.phase = s.phase)
    (hheader : s.phase = .header → OutcomesAgree R (stepAt .start s) (stepAt .start t))
    (hpixels : s.phase = .pixels → OutcomesAgree R (stepAt .stream s) (stepAt .stream t)) :
    OutcomesAgree R (step s) (step t) := by
  unfold step
  rw [hr, hp]
  split
  · split
    · exact hheader ‹_›
    · exact hpixels ‹_›
    · rfl
    · rfl
  · rfl

/-! Pixel data. -/

theorem SameBoundaries.raise {s t : State} (h : SameBoundaries s t) (c : Cause) :
    SameBoundaries (s.raise c) (t.raise c) := by
  obtain ⟨hbias, hcap, hin, hr, -, -, -, -, -, hfree⟩ := h
  exact ⟨hbias, hcap, hin, hr, rfl, rfl, by simp [hfree], by simp [hfree], by simp [hfree], by simp [hfree]⟩

theorem SameBoundaries.afterHeader {s t : State} (h : SameBoundaries s t) (hdr : Header) :
    SameBoundaries (s.afterHeader hdr) (t.afterHeader hdr) := by
  obtain ⟨hbias, hcap, hin, hr, -, hcause, -, hinPos, hout, hfree⟩ := h
  exact ⟨hbias, hcap, hin, hr, rfl, hcause, rfl, by simp [hinPos], hout, hfree⟩

theorem SameBoundaries.afterOpcode {s t : State} (h : SameBoundaries s t) (hp : s.phase = .pixels) (i : Instr) :
    SameBoundaries (s.afterOpcode i) (t.afterOpcode i) := by
  obtain ⟨hbias, hcap, hin, hr, hphase, hcause, hhdr, hinPos, hout, hfree⟩ := h
  refine ⟨by simpa, by simpa, by simpa, by simpa, ?_, by simpa, by simpa, by simpa, by simp [*], by simpa⟩
  rw [State.afterOpcode_phase hp, State.afterOpcode_phase (hphase.trans hp)]
  simp [hbias, hhdr, hout]

/-- Settles O43: what a step fetches and the room it finds depend on no pixel. -/
theorem boundariesIgnorePixelData : Obligations.BoundariesIgnorePixelData := by
  intro s t h
  refine outcomesAgree_step h.hasBeenReset h.phase (fun hp => ?_) (fun hp => ?_)
  · exact outcomesAgree_stepAt_start hp (h.phase.trans hp) h.input h.inPos h.outCapacity h.raise h.afterHeader
  · exact outcomesAgree_stepAt_stream hp (h.phase.trans hp) h.input h.inPos h.outPos h.hdr h.runBias h.raise
      (h.afterOpcode hp)

/-! What has no value. -/

theorem SameDecode.raise {s t : State} (h : SameDecode s t) (c : Cause) : SameDecode (s.raise c) (t.raise c) :=
  ⟨h.cfg, h.input, h.hasBeenReset, rfl, rfl, fun herr => absurd rfl herr, nofun⟩

theorem SameDecode.afterHeader {s t : State} (h : SameDecode s t) (hp : s.phase = .header) (hdr : Header) :
    SameDecode (s.afterHeader hdr) (t.afterHeader hdr) := by
  obtain ⟨hinPos, hout, hpx, hcache, hmem⟩ := h.registers (by simp [hp])
  exact ⟨h.cfg, h.input, h.hasBeenReset, rfl, h.cause, fun _ => ⟨by simp [hinPos], hout, hpx, hcache, hmem⟩, fun _ => rfl⟩

/-- Emitting the same pixels keeps two states alike in everything a decode reads. -/
theorem emitAll_congr {s t : State} (hhdr : t.hdr = s.hdr) (hout : t.outPos = s.outPos) (hpx : t.px = s.px)
    (hcache : t.cache = s.cache) (hmem : t.out = s.out) (ps : List Pixel) :
    (t.emitAll ps).px = (s.emitAll ps).px ∧ (t.emitAll ps).cache = (s.emitAll ps).cache ∧
      (t.emitAll ps).out = (s.emitAll ps).out := by
  induction ps generalizing s t with
  | nil => exact ⟨hpx, hcache, hmem⟩
  | cons p ps ih => exact ih hhdr (by simp [hout, hhdr]) rfl (by simp [hcache]) (by simp [hmem, hout, hhdr])

/-- The pixels an instruction emits depend on the parameters, PX and CACHE alone. -/
theorem pixelsOf_congr {s t : State} (hcfg : t.cfg = s.cfg) (hpx : t.px = s.px) (hcache : t.cache = s.cache) (i : Instr) :
    pixelsOf i t = pixelsOf i s := by
  cases i <;> simp only [pixelsOf, rgbPixel, indexPixel, diffPixel, lumaPixel, hcfg, hpx, hcache]

theorem SameDecode.afterOpcode {s t : State} (h : SameDecode s t) (hp : s.phase = .pixels) (i : Instr) :
    SameDecode (s.afterOpcode i) (t.afterOpcode i) := by
  obtain ⟨hinPos, hout, hpx, hcache, hmem⟩ := h.registers (by simp [hp])
  have hhdr := h.header (by rw [hp]; rfl)
  have hps := pixelsOf_congr h.cfg hpx hcache i
  obtain ⟨hpx', hcache', hmem'⟩ :=
    emitAll_congr (s := s.advanceIn i.length) (t := t.advanceIn i.length) hhdr hout hpx hcache hmem (pixelsOf i s)
  have hout' : (t.afterOpcode i).outPos = (s.afterOpcode i).outPos := by simp [hout, hhdr, h.cfg]
  refine ⟨by simpa using h.cfg, by simpa using h.input, by simpa using h.hasBeenReset, ?_, by simpa using h.cause,
    fun _ => ⟨by simp [hinPos], hout', ?_, ?_, ?_⟩, fun _ => by simpa using hhdr⟩
  · rw [State.afterOpcode_phase hp, State.afterOpcode_phase (h.phase.trans hp), hout', hhdr]
  · rw [State.afterOpcode, hps]
    exact hpx'
  · rw [State.afterOpcode, hps]
    exact hcache'
  · rw [State.afterOpcode, hps]
    exact hmem'

/-- Steps of states that differ only where nothing has a value agree again in everything that has (R29, R197). -/
theorem SameDecode.step {s t : State} (h : SameDecode s t) : OutcomesAgree SameDecode (step s) (step t) := by
  refine outcomesAgree_step h.hasBeenReset h.phase (fun hp => ?_) (fun hp => ?_)
  · obtain ⟨hinPos, -⟩ := h.registers (by simp [hp])
    exact outcomesAgree_stepAt_start hp (h.phase.trans hp) h.input hinPos (by rw [h.cfg]) h.raise (h.afterHeader hp)
  · obtain ⟨hinPos, hout, -⟩ := h.registers (by simp [hp])
    exact outcomesAgree_stepAt_stream hp (h.phase.trans hp) h.input hinPos hout (h.header (by rw [hp]; rfl))
      (by rw [h.cfg]) h.raise (h.afterOpcode hp)

/-- What the host can read is what has a value. -/
theorem SameDecode.reads {s t : State} (h : SameDecode s t) :
    result s = result t ∧ (∀ reg, readPort reg s = readPort reg t) ∧ ∀ a, readOut a s = readOut a t := by
  obtain ⟨-, -, hr, hphase, hcause, hregs, hhdr⟩ := h
  cases hp : s.phase <;> rw [hp] at hphase hregs hhdr
  case header | error =>
    refine ⟨by simp [result, hp, hphase, hcause], fun reg => ?_, fun a => by simp [readOut, hp, hphase]⟩
    cases reg <;> simp [readPort, hp, hphase, hr, hcause, headerReadable]
  case pixels =>
    have hhdr := hhdr rfl
    refine ⟨by simp [result, hp, hphase], fun reg => ?_, fun a => by simp [readOut, hp, hphase]⟩
    cases reg <;> simp [readPort, hp, hphase, hr, hcause, hhdr]
  case done =>
    have hhdr := hhdr rfl
    obtain ⟨hinPos, hout, -, -, hmem⟩ := hregs nofun
    refine ⟨by simp [result, hp, hphase, hhdr, hmem], fun reg => ?_, fun a => by simp [readOut, hp, hphase, hr, hhdr, hmem]⟩
    cases reg <;> simp [readPort, hp, hphase, hr, hcause, hhdr, hinPos, hout]

/-- Settles O44: neither a step nor the host looks where nothing has a value. -/
theorem unspecifiedValuesNeverSurface : Obligations.UnspecifiedValuesNeverSurface :=
  fun _ _ h => ⟨h.step, h.reads⟩

/-- Two resets with the same IN and parameters differ only in what stands in the header registers (R29). -/
theorem sameDecode_launch (cfg : Config) (input : List Byte) (m n : Nat) :
    SameDecode (State.launch cfg input m) (State.launch cfg input n) :=
  ⟨rfl, rfl, rfl, rfl, rfl, fun _ => ⟨rfl, rfl, rfl, rfl, rfl⟩, nofun⟩

/-- Whole runs agree as their steps do. -/
theorem SameDecode.runToEnd {s t : State} (h : SameDecode s t) (fuel : Nat) :
    OutcomesAgree SameDecode (runToEnd fuel s) (runToEnd fuel t) := by
  induction fuel generalizing s t with
  | zero => exact h
  | succ fuel ih =>
    unfold Machine.runToEnd
    rw [h.phase]
    split
    · exact h
    · obtain ⟨s', t', hs, ht, h'⟩ | ⟨f, hs, ht⟩ | ⟨r, hs, ht⟩ := h.step.elim
      · rw [hs, ht]
        exact ih h'
      · rw [hs, ht]
        rfl
      · rw [hs, ht]
        rfl

/-- Settles O45: the two resets differ only where nothing has a value, so their runs end in states of one result. -/
theorem decodesAreIndependent : Obligations.DecodesAreIndependent := by
  intro s t input hcfg
  have hrun := (sameDecode_launch s.cfg input s.freeCount t.freeCount).runToEnd (input.length + 2)
  unfold decodeStream
  rw [State.applyReset_eq, State.applyReset_eq, ← hcfg]
  obtain ⟨u, v, hs, ht, hsame⟩ | ⟨f, hs, ht⟩ | ⟨r, hs, ht⟩ := hrun.elim
  · obtain ⟨hresult, -⟩ := hsame.reads
    rw [hs, ht]
    exact congrArg some hresult
  · rw [hs, ht]
  · rw [hs, ht]

end Sys2Proof.Machine
end

section
/-! PROOFS. 41_loop_dispatch_commit.md: the hash in wrapping arithmetic (R137). -/

namespace Sys2Proof.Machine

/-- A sum that wraps at 6 bits or more has the low 6 bits of the exact sum. -/
theorem toNat_add_modEq {w : Nat} (hw : 6 ≤ w) (x y : BitVec w) : (x + y).toNat ≡ x.toNat + y.toNat [MOD 2 ^ 6] := by
  rw [BitVec.toNat_add]
  exact (Nat.mod_modEq _ _).of_dvd (pow_dvd_pow 2 hw)

/-- A product that wraps at 6 bits or more has the low 6 bits of the exact product, and so has a truncated factor. -/
theorem toNat_setWidth_mul_modEq {w : Nat} (hw : 6 ≤ w) (c : Byte) (k : Nat) :
    (c.setWidth w * BitVec.ofNat w k).toNat ≡ c.toNat * k [MOD 2 ^ 6] := by
  have hwrap : ∀ n, n % 2 ^ w ≡ n [MOD 2 ^ 6] := fun n => (Nat.mod_modEq n _).of_dvd (pow_dvd_pow 2 hw)
  rw [BitVec.toNat_mul, BitVec.toNat_setWidth, BitVec.toNat_ofNat]
  exact (hwrap _).trans ((hwrap _).mul (hwrap _))

/-- Settles O34: the low 6 bits of sums and products depend on the low 6 bits of their parts. -/
theorem hashIsWidthInsensitive : Obligations.HashIsWidthInsensitive := by
  refine ⟨fun w p hw => ?_, by decide, by decide, by decide, by decide, by decide, by decide, by decide, by decide⟩
  have hmul := toNat_setWidth_mul_modEq hw
  have hadd := toNat_add_modEq hw
  rw [extractLsb'_toNat_eq_div_mod, pow_zero, Nat.div_one, pixelHash_val]
  exact (hadd _ _).trans <| ((hadd _ _).trans <| ((hadd _ _).trans <|
    (hmul p.r 3).add (hmul p.g 5)).add (hmul p.b 7)).add (hmul p.a 11)

end Sys2Proof.Machine
end

section
/-! PROOFS. The step refines the spec's pseudocode, in which every opcode fetches its own operand bytes (R10, R110, R132). -/

namespace Sys2Proof.Machine

/-! Running pseudocode. -/

theorem pseudo_bind_ok {α β : Type} {x : Pseudo α} {f : α → Pseudo β} {s t : State} {a : α} (h : x s = .ok (a, t)) :
    (x >>= f) s = f a t := by
  change (x s >>= fun p => f p.1 p.2) = f a t
  rw [h]
  rfl

theorem pseudo_bind_error {α β : Type} {x : Pseudo α} {f : α → Pseudo β} {s : State} {c : Cause} (h : x s = .error c) :
    (x >>= f) s = .error c := by
  change (x s >>= fun p => f p.1 p.2) = .error c
  rw [h]
  rfl

theorem pRegs_bind {β : Type} (f : State → Pseudo β) (s : State) : (pRegs >>= f) s = f s s :=
  pseudo_bind_ok rfl

theorem pAssign_bind {β : Type} (g : State → State) (f : Unit → Pseudo β) (s : State) :
    (pAssign g >>= f) s = f () (g s) :=
  pseudo_bind_ok rfl

theorem pRaiseIf_bind {β : Type} (b : Bool) (c : Cause) (f : Unit → Pseudo β) (s : State) :
    (pRaiseIf b c >>= f) s = if b then .error c else f () s := by
  cases b <;> rfl

@[simp] theorem State.advanceIn_advanceIn (m n : Nat) (s : State) :
    (s.advanceIn m).advanceIn n = s.advanceIn (m + n) := by
  simp only [State.advanceIn, Nat.add_assoc]

@[simp] theorem State.remaining_advanceIn (n : Nat) (s : State) : (s.advanceIn n).remaining = s.remaining.drop n := by
  simp only [State.remaining, State.advanceIn_input, State.advanceIn_inPos, List.drop_drop]

/-- `Fetch` takes the first of the bytes left, or raises (R54). -/
theorem pFetch_eq (s : State) :
    pFetch s = s.remaining.head?.elim (.error .truncation) fun b => .ok (b, s.advanceIn 1) := by
  rw [State.remaining, List.head?_drop]
  unfold pFetch
  split
  · rename_i h
    rw [List.getElem?_eq_getElem h]
    rfl
  · rename_i h
    rw [List.getElem?_eq_none (by omega)]
    rfl

/-- A `Fetch` and what follows it. -/
theorem pFetch_bind {β : Type} (f : Byte → Pseudo β) (s : State) :
    (pFetch >>= f) s = s.remaining.head?.elim (.error .truncation) fun b => f b (s.advanceIn 1) := by
  have h := pFetch_eq s
  cases hhead : s.remaining.head? with
  | none => exact pseudo_bind_error (by rw [h, hhead]; rfl)
  | some b => exact pseudo_bind_ok (by rw [h, hhead]; rfl)

/-- One `Fetch` more than code that needs `n` bytes needs `n + 1`. -/
theorem pFetch_bind_short {β : Type} {f : Byte → Pseudo β} {n : Nat}
    (hf : ∀ b t, t.remaining.length < n → f b t = .error .truncation) {s : State} (h : s.remaining.length < n + 1) :
    (pFetch >>= f) s = .error .truncation := by
  rw [pFetch_bind]
  cases hhead : s.remaining.head? with
  | none => rfl
  | some b =>
    have hpos := List.length_pos_of_mem (List.mem_of_mem_head? hhead)
    exact hf b _ (by rw [State.remaining_advanceIn, List.length_drop]; omega)

/-! The commit. -/

/-- Commits of the model as a piece of pseudocode, which returns nothing but the new state. -/
def pseudoOfCommit (e : Except Cause State) : Except Cause (Unit × State) := e.map fun t => ((), t)

/-- `Commit` (R135). -/
theorem pCommit_eq (p : Pixel) (s : State) : pCommit p s = pseudoOfCommit (commit p s) := by
  unfold pCommit
  rw [pRegs_bind, pRaiseIf_bind]
  by_cases hroom : s.outPos + spp s.hdr ≤ total s.hdr
  · rw [commit_ok hroom, if_neg (by simpa using hroom)]
    by_cases hc : s.hdr.channels = 4#8 <;>
      simp [hc, Bool.cond_eq_ite, pMemWrite, pAssign_bind, pAssign, pseudoOfCommit, Except.map, State.emit, samples,
        Memory.writeList]
  · rw [commit_error hroom, if_pos (by simpa using hroom)]
    rfl

/-- `repeat n times: Commit(PX)` (R180). -/
theorem pRepeatCommit_eq (n : Nat) (s : State) : pRepeatCommit n s = pseudoOfCommit (commitRun n s) := by
  induction n generalizing s with
  | zero => rfl
  | succ n ih =>
    rw [pRepeatCommit, pRegs_bind, commitRun]
    have hcommit := pCommit_eq s.px s
    cases hone : commit s.px s with
    | error c =>
      rw [hone] at hcommit
      exact pseudo_bind_error hcommit
    | ok t =>
      rw [hone] at hcommit
      exact (pseudo_bind_ok hcommit).trans (ih t)

/-! Fields of a tag and of an operand byte. -/

/-- Shifting and masking a byte gives the field that stands there (R90). -/
theorem shift_and_mask_toNat (b : Byte) (k : Nat) (mask : Byte) {n : Nat} (hmask : mask.toNat = 2 ^ n - 1) :
    ((b >>> k) &&& mask).toNat = (b.extractLsb' k n).toNat := by
  rw [BitVec.toNat_and, hmask, Nat.and_two_pow_sub_one_eq_mod, BitVec.toNat_ushiftRight, Nat.shiftRight_eq_div_pow,
    extractLsb'_toNat_eq_div_mod]

/-- Masking a byte gives the field at its low end (R90). -/
theorem and_mask_toNat (b : Byte) (mask : Byte) {n : Nat} (hmask : mask.toNat = 2 ^ n - 1) :
    (b &&& mask).toNat = (b.extractLsb' 0 n).toNat := by
  rw [← shift_and_mask_toNat b 0 mask hmask, BitVec.ushiftRight_zero]

/-- LUMA_DG_MASK on the tag is the mask on its payload (R87). -/
theorem tag_and_lumaMask_toNat (tag : Byte) (mask : LumaDgMask) :
    (tag &&& lumaMaskByte mask).toNat = (tag.extractLsb' 0 6 &&& lumaMaskBits mask).toNat := by
  rw [BitVec.toNat_and, BitVec.toNat_and, extractLsb'_toNat_eq_div_mod]
  cases mask with
  | sixBits =>
    have htag := Nat.and_two_pow_sub_one_eq_mod tag.toNat 6
    have hpayload := Nat.and_two_pow_sub_one_eq_mod (tag.toNat / 2 ^ 0 % 2 ^ 6) 6
    exact htag.trans (hpayload.trans (by omega)).symm
  | fiveBits =>
    have htag := Nat.and_two_pow_sub_one_eq_mod tag.toNat 5
    have hpayload := Nat.and_two_pow_sub_one_eq_mod (tag.toNat / 2 ^ 0 % 2 ^ 6) 5
    exact htag.trans (hpayload.trans (by omega)).symm

/-- A component moved by a delta, as the pseudocode writes it (R9, R172). -/
theorem mod256_add (c : Byte) (d : Int) : mod256 (c.toNat + d) = addDelta c d := by
  apply BitVec.eq_of_toNat_eq
  have hnonneg := Int.emod_nonneg ((c.toNat : Int) + d) (b := 256) (by decide)
  have hlt := Int.emod_lt_of_pos ((c.toNat : Int) + d) (b := 256) (by decide)
  have hexact := addDelta_toNat c d
  rw [mod256, BitVec.toNat_ofNat]
  omega

/-! The opcodes. -/

/-- `ExecRGB` commits its operands with the alpha of PX (R150). -/
theorem pExecRgb_eq {s : State} {r g b : Byte} {rest : List Byte} (hrem : s.remaining = r :: g :: b :: rest) :
    pExecRgb s = pseudoOfCommit ((s.advanceIn 3).emitIfRoom [rgbPixel r g b s]) := by
  simp [pExecRgb, pFetch_bind, hrem, pRegs_bind, pCommit_eq, commit_eq_emitIfRoom, rgbPixel]

/-- `ExecRGBA` commits its operands (R151). -/
theorem pExecRgba_eq {s : State} {r g b a : Byte} {rest : List Byte} (hrem : s.remaining = r :: g :: b :: a :: rest) :
    pExecRgba s = pseudoOfCommit ((s.advanceIn 4).emitIfRoom [⟨r, g, b, a⟩]) := by
  simp [pExecRgba, pFetch_bind, hrem, pCommit_eq, commit_eq_emitIfRoom]

/-- `ExecINDEX` commits the slot that the payload numbers (R160). -/
theorem pExecIndex_eq (tag : Byte) (s : State) :
    pExecIndex tag s = pseudoOfCommit (s.emitIfRoom [indexPixel (tag.extractLsb' 0 6) s]) := by
  have hidx : Fin.ofNat 64 (tag &&& 0x3F).toNat = (tag.extractLsb' 0 6).toFin := by
    rw [and_mask_toNat tag 0x3F (n := 6) rfl]
    exact Fin.ext (Nat.mod_eq_of_lt (tag.extractLsb' 0 6).isLt)
  rw [pExecIndex, pRegs_bind, hidx, pCommit_eq, commit_eq_emitIfRoom, indexPixel]

/-- `ExecDIFF` commits PX moved by the three fields of its tag (R170). -/
theorem pExecDiff_eq (tag : Byte) (s : State) :
    pExecDiff tag s = pseudoOfCommit (s.emitIfRoom
      [diffPixel (tag.extractLsb' 4 2) (tag.extractLsb' 2 2) (tag.extractLsb' 0 2) s]) := by
  simp only [pExecDiff, pRegs_bind, pCommit_eq, commit_eq_emitIfRoom, mod256_add, shift_and_mask_toNat tag 4 3 (n := 2) rfl,
    shift_and_mask_toNat tag 2 3 (n := 2) rfl, and_mask_toNat tag 3 (n := 2) rfl, diffPixel, shiftPixel, diffDelta, biased,
    Nat.cast_ofNat]

/-- `ExecLUMA` commits PX moved by the fields of its tag and its operand byte (R171). -/
theorem pExecLuma_eq (tag : Byte) {s : State} {byte : Byte} {rest : List Byte} (hrem : s.remaining = byte :: rest) :
    pExecLuma tag s = pseudoOfCommit ((s.advanceIn 1).emitIfRoom
      [lumaPixel (tag.extractLsb' 0 6) (byte.extractLsb' 4 4) (byte.extractLsb' 0 4) s]) := by
  simp only [pExecLuma, pRegs_bind, pFetch_bind, hrem, List.head?_cons, Option.elim_some, pCommit_eq, commit_eq_emitIfRoom,
    add_assoc, mod256_add, tag_and_lumaMask_toNat, shift_and_mask_toNat byte 4 0xF (n := 4) rfl,
    and_mask_toNat byte 0xF (n := 4) rfl, lumaPixel, shiftPixel, lumaGreenDelta, lumaRelativeDelta, biased, Nat.cast_ofNat,
    State.advanceIn_px]

/-- `ExecRUN` commits PX as often as the payload and RUN_BIAS say (R180). -/
theorem pExecRun_eq (tag : Byte) (s : State) :
    pExecRun tag s = pseudoOfCommit (s.emitIfRoom
      (List.replicate (runLength s.cfg.runBias (tag.extractLsb' 0 6)) s.px)) := by
  rw [pExecRun, pRegs_bind, and_mask_toNat tag 0x3F (n := 6) rfl, pRepeatCommit_eq, commitRun_eq_emitIfRoom, runLength]

/-- Each opcode's body, run behind its tag: its operand bytes are those that the decoder took, and it commits the pixels of the
decoded instruction (R134). -/
theorem pExecOpcode_eq {tag : Byte} {rest : List Byte} {i : Instr} {s : State}
    (hd : decodeOperands tag s.remaining (dispatch tag) = .ok (i, rest)) :
    pExecOpcode tag (dispatch tag) s =
      pseudoOfCommit ((s.advanceIn (i.length - 1)).emitIfRoom (pixelsOf i s)) := by
  cases hop : dispatch tag <;> rw [hop] at hd
  case rgb =>
    match hrem : s.remaining, hd with
    | r :: g :: b :: rest', rfl => exact pExecRgb_eq hrem
  case rgba =>
    match hrem : s.remaining, hd with
    | r :: g :: b :: a :: rest', rfl => exact pExecRgba_eq hrem
  case index =>
    cases hd
    exact pExecIndex_eq tag s
  case diff =>
    cases hd
    exact pExecDiff_eq tag s
  case luma =>
    match hrem : s.remaining, hd with
    | byte :: rest', rfl => exact pExecLuma_eq tag hrem
  case run =>
    cases hd
    exact pExecRun_eq tag s

/-- When an opcode's operand bytes are not all there, its body raises (R54). -/
theorem pExecOpcode_short {tag : Byte} {op : Opcode} {s : State} (h : s.remaining.length + 1 < opcodeLength op) :
    pExecOpcode tag op s = .error .truncation := by
  have hnone : ∀ {b : Pseudo Unit} {t : State}, t.remaining.length < 0 → b t = .error .truncation :=
    fun h => absurd h (Nat.not_lt_zero _)
  cases op with
  | rgb =>
    exact pFetch_bind_short (fun _ _ => pFetch_bind_short fun _ _ => pFetch_bind_short fun _ _ => hnone)
      (Nat.lt_of_succ_lt_succ h)
  | rgba =>
    exact pFetch_bind_short
      (fun _ _ => pFetch_bind_short fun _ _ => pFetch_bind_short fun _ _ => pFetch_bind_short fun _ _ => hnone)
      (Nat.lt_of_succ_lt_succ h)
  | luma =>
    rw [pExecOpcode, pExecLuma, pRegs_bind]
    exact pFetch_bind_short (fun _ _ => hnone) (Nat.lt_of_succ_lt_succ h)
  | index | diff | run => simp [opcodeLength] at h

/-- The last line of `OpcodeStep` (R132). -/
theorem pAssign_loopTest (s : State) :
    pAssign (fun s => if s.outPos = total s.hdr then { s with phase := .done } else s) s = .ok ((), s.endOpcode) := by
  by_cases h : s.outPos = total s.hdr <;> simp [pAssign, State.endOpcode, phaseAfterOpcode, h]

/-- In PIXELS the step does what `OpcodeStep` does (R132). -/
theorem step_eq_pOpcodeStep {s : State} (hr : s.hasBeenReset = true) (hp : s.phase = .pixels) :
    step s = pseudoOutcome pOpcodeStep s := by
  rw [step_pixels hr hp, pseudoOutcome, pOpcodeStep, pFetch_bind]
  cases hrem : s.remaining with
  | nil => exact stepAt_error (e := .exhausted) (by rw [fetchInstr, hrem]; rfl)
  | cons tag rest =>
    have hrest : (s.advanceIn 1).remaining = rest := by simp [hrem]
    rw [List.head?_cons, Option.elim_some]
    cases hfetch : fetchInstr .stream s with
    | error e =>
      obtain ⟨rfl, hshort⟩ := fetchInstr_stream_error hfetch
      have hbody := pExecOpcode_short (tag := tag) (op := dispatch tag) (s := s.advanceIn 1)
        (by rw [hrest]; exact hshort tag rest hrem)
      rw [stepAt_error hfetch, pseudo_bind_error hbody]
      rfl
    | ok i =>
      obtain ⟨rest', hd⟩ := fetchInstr_ok_iff.mp hfetch
      rw [hrem, ← hrest] at hd
      have hlength : 1 + (i.length - 1) = i.length := by
        have hpos := i.length_pos
        omega
      have hbody := pExecOpcode_eq hd
      rw [pixelsOf_advanceIn, State.advanceIn_advanceIn, hlength, emitIfRoom_advanceIn] at hbody
      rw [stepAt_stream_ok hp hfetch]
      by_cases hroom : Emittable (pixelCount s.cfg.runBias i) s
      · rw [if_pos hroom] at hbody ⊢
        rw [pseudo_bind_ok hbody, pAssign_loopTest]
        rfl
      · rw [if_neg hroom] at hbody ⊢
        rw [pseudo_bind_error hbody]

/-! The header. -/

/-- The last line of `HeaderStep` (R110, R116). -/
theorem pAssign_endHeader (s : State) :
    pAssign (fun s => if total s.hdr = 0 then { s with phase := .done } else { s with phase := .pixels }) s =
      .ok ((), s.endHeader) := by
  by_cases h : total s.hdr = 0 <;> simp [pAssign, State.endHeader, phaseAfterHeader, h]

/-- The ten bytes behind the magic, when they are there: the colorspace is checked and the fields are stored (R113, R114). -/
theorem pHeaderFields_eq {s : State} {w0 w1 w2 w3 h0 h1 h2 h3 c cs : Byte} {rest : List Byte}
    (hrem : s.remaining = w0 :: w1 :: w2 :: w3 :: h0 :: h1 :: h2 :: h3 :: c :: cs :: rest) :
    pHeaderFields s = if colorspaceOk cs
      then .ok ((), ((s.advanceIn 10).setHeader ⟨be32 w0 w1 w2 w3, be32 h0 h1 h2 h3, c, cs⟩).endHeader)
      else .error .formatColorspace := by
  simp only [pHeaderFields, pFetch_bind, hrem, State.remaining_advanceIn, State.advanceIn_advanceIn, List.head?_cons,
    Option.elim_some, List.drop_succ_cons, List.drop_zero, Nat.reduceAdd, pRaiseIf_bind, pAssign_bind]
  by_cases hcs : cs = 0 ∨ cs = 1
  · rw [if_neg (by simpa [or_iff_not_imp_left] using hcs), if_pos ((colorspaceOk_iff cs).mpr hcs), pAssign_endHeader]
    rfl
  · rw [if_pos (by simpa using hcs), if_neg (mt (colorspaceOk_iff cs).mp hcs)]

/-- When they are not all there, it raises (R112). -/
theorem pHeaderFields_short {s : State} (h : s.remaining.length < 10) : pHeaderFields s = .error .truncation := by
  unfold pHeaderFields
  iterate 10 refine pFetch_bind_short (fun _ _ h => ?_) h
  exact absurd h (Nat.not_lt_zero _)

/-- The first four bytes are compared with the magic before any other is fetched (R111). -/
theorem pHeaderStep_eq {s : State} {m0 m1 m2 m3 : Byte} {fields : List Byte}
    (hrem : s.remaining = m0 :: m1 :: m2 :: m3 :: fields) :
    pHeaderStep s = if be32 m0 m1 m2 m3 = magicTag then pHeaderFields (s.advanceIn 4) else .error .formatMagic := by
  have hcheck : (!(m0 == 0x71 && m1 == 0x6F && m2 == 0x69 && m3 == 0x66)) = true ↔ be32 m0 m1 m2 m3 ≠ magicTag := by
    rw [ne_eq, be32_eq_magicTag_iff]
    simp [imp_iff_not_or, or_assoc]
  simp only [pHeaderStep, pFetch_bind, hrem, State.remaining_advanceIn, State.advanceIn_advanceIn, List.head?_cons,
    Option.elim_some, List.drop_succ_cons, List.drop_zero, Nat.reduceAdd, pRaiseIf_bind, hcheck, ite_not]

theorem pHeaderStep_short {s : State} (h : s.remaining.length < 4) : pHeaderStep s = .error .truncation := by
  unfold pHeaderStep
  iterate 4 refine pFetch_bind_short (fun _ _ h => ?_) h
  exact absurd h (Nat.not_lt_zero _)

/-- With fourteen bytes left the header step runs the HEADER they are (R81, R110). -/
theorem stepAt_start_of_fourteen {s : State} {m0 m1 m2 m3 w0 w1 w2 w3 h0 h1 h2 h3 c cs : Byte} {rest : List Byte}
    (hp : s.phase = .header)
    (hrem : s.remaining = m0 :: m1 :: m2 :: m3 :: w0 :: w1 :: w2 :: w3 :: h0 :: h1 :: h2 :: h3 :: c :: cs :: rest) :
    stepAt .start s =
      if be32 m0 m1 m2 m3 = magicTag then
        if colorspaceOk cs then
          if fitsCapacity s.cfg.outCapacity (total ⟨be32 w0 w1 w2 w3, be32 h0 h1 h2 h3, c, cs⟩) then
            .next (s.afterHeader ⟨be32 w0 w1 w2 w3, be32 h0 h1 h2 h3, c, cs⟩)
          else .refused .exceedsOutCapacity
        else .next (s.raise .formatColorspace)
      else .next (s.raise .formatMagic) := by
  have hfetch : fetchInstr .start s =
      .ok (.header (be32 m0 m1 m2 m3) (be32 w0 w1 w2 w3) (be32 h0 h1 h2 h3) c cs) := by
    rw [fetchInstr, hrem]
    rfl
  rw [stepAt_ok hfetch, exec_header_eq hp (fetchable_of_fetchInstr hfetch)]

/-- What the result of `HeaderStep` makes of a step: an error enters ERROR, and a TOTAL beyond OUT_CAPACITY has no successor
(R117, R197). -/
def headerOutcome (s : State) : Except Cause (Unit × State) → Host.Outcome State Fault Refusal
  | .ok (_, t) => if fitsCapacity t.cfg.outCapacity (total t.hdr) then .next t else .refused .exceedsOutCapacity
  | .error c => .next (s.raise c)

theorem headerOutcome_afterHeader (h : Header) (s : State) :
    headerOutcome s (.ok ((), s.afterHeader h)) =
      if fitsCapacity s.cfg.outCapacity (total h) then .next (s.afterHeader h) else .refused .exceedsOutCapacity := rfl

/-- In HEADER the step does what `HeaderStep` does, whether or not all fourteen bytes are there (R110 to R112). -/
theorem step_eq_pHeaderStep {s : State} (hr : s.hasBeenReset = true) (hp : s.phase = .header) :
    step s = headerOutcome s (pHeaderStep s) := by
  rw [step_header hr hp]
  match hrem : s.remaining with
  | m0 :: m1 :: m2 :: m3 :: fields =>
    have hfields : (s.advanceIn 4).remaining = fields := by simp [hrem]
    rw [pHeaderStep_eq hrem]
    rcases Nat.lt_or_ge fields.length 10 with hshort | hlong
    · rw [stepAt_start_short hrem hshort, pHeaderFields_short (by rwa [hfields])]
      split <;> rfl
    · match fields, hlong with
      | w0 :: w1 :: w2 :: w3 :: h0 :: h1 :: h2 :: h3 :: c :: cs :: rest, _ =>
        rw [stepAt_start_of_fourteen hp hrem, pHeaderFields_eq hfields, State.advanceIn_advanceIn, ← State.afterHeader,
          apply_ite (headerOutcome s), apply_ite (headerOutcome s), headerOutcome_afterHeader]
        rfl
  | [] | [_] | [_, _] | [_, _, _] =>
    have hfetch : fetchInstr .start s = .error .exhausted := by
      rw [fetchInstr, hrem]
      rfl
    rw [stepAt_error hfetch, pHeaderStep_short (by simp [hrem])]
    rfl

/-- Settles O12: the decoder takes the bytes that the pseudocode fetches, and finds them missing where it does. -/
theorem stepRefinesThePseudocode : Obligations.StepRefinesThePseudocode := by
  refine fun s hr => ⟨step_eq_pOpcodeStep hr, fun hp => (step_eq_pHeaderStep hr hp).trans ?_⟩
  generalize pHeaderStep s = outcome
  cases outcome <;> rfl

end Sys2Proof.Machine
end
